-- ==== Sys2Proof/Word.lean ====
section
/-! DEFINITION. The word types: the 32-bit operand word, the byte, and the length result. -/

namespace Sys2Proof

/-- The operand word `value`: 32 bits, unsigned (R5, R45). -/
abbrev Word := BitVec 32

/-- A byte of the output buffer: 8 bits (R5, R25). -/
abbrev Byte := BitVec 8

/-- The length result, the five-valued type {0, 1, 2, 3, 4} that D6 asks for; the codes 5, 6, 7 of the
3-bit port do not exist in it (R91, U6). -/
abbrev Len := Fin 5

end Sys2Proof
end

