-- ==== Sys2Proof/Config.lean ====
section
/-! DEFINITION. What is fixed for the machine: the constants of rule R5, the two policies of
`92_eei_decisions.md` D21, and the free values, which have no body. -/

namespace Sys2Proof.Config

/-- `M1`, the largest value of the 1-byte class (R5). -/
def max1 : Nat := 0x7F
/-- `M2`, the largest value of the 2-byte class (R5). -/
def max2 : Nat := 0x7FF
/-- `M3`, the largest value of the 3-byte class (R5). -/
def max3 : Nat := 0xFFFF
/-- `M4` = `VMAX` = 1,114,111, the largest value that is encoded (R5). -/
def max4 : Nat := 0x10FFFF

/-- `LANES`, the number of output byte lanes (R5, R18). -/
def lanes : Nat := 4

/-- A switch of D21: what happens to the bytes that the contract of the source document leaves to the
implementer. The hardware of the spec is `untouched`, under both switches. -/
inductive Policy where
  /-- The bytes keep what they held (R34, R35). -/
  | untouched
  /-- Each byte becomes an arbitrary byte drawn by the environment (D21, U1, U2). -/
  | havoc
deriving DecidableEq, Repr

/-- FREE VALUE (log entry 6): the byte that environment number `environment` draws at its draw number `n` under a
`havoc` policy (D21: "a draw by the environment, never a fixed value"). It has no body, so no proof can know it.
DESIGN CHOICE: two states with the same environment number and the same draw number draw the same byte. -/
opaque freeByte (environment n : Nat) : Byte

/-- FREE VALUE (log entry 7): the byte that index `i` holds before anything has written it, in buffer number
`bufferNo` that environment number `environment` supplies (R22, R131, D22: "an arbitrary value fixed by the
environment before the first operation"). It has no body, so no proof can know it or tie two of its values. -/
opaque unwrittenByte (environment bufferNo i : Nat) : Byte

/-- FREE VALUE (log entry 9): what lane `i` of `wdata` carries for this value while `wen[i] = 0`
(R18: it "has no meaning and no effect"; all outputs are functions of `value` alone). -/
opaque idleData (value : Word) (i : Nat) : Byte

/-- FREE VALUE (log entry 18): the `Payload` of a byte list of no encoded form's length, that is of none or of more than four
bytes. R94 defines `Payload` for the lengths 1 to 4 only. It has no body, so no proof can know it. -/
opaque payloadElsewhere (bytes : List Byte) : Nat

end Sys2Proof.Config
end

