-- ==== Sys2Proof/Syntax.lean ====
section
/-! DEFINITION. The five forms of `ENCODE` (the rows of spec/opcode_table.json) and the instruction:
an operation word already cut into the fields of its input format (R49). -/

namespace Sys2Proof

/-- The five forms the value selects (R46). A caller cannot choose one: the value does (R61). -/
inductive Form where
  | enc1 | enc2 | enc3 | enc4 | encRej
deriving DecidableEq, Repr

/-- One `ENCODE` with its value cut into the fields of its form, each at its own width (R49, R50). -/
inductive Instr where
  /-- `ENC1`, format `IF1`: `a` = value[6:0] (R72). -/
  | enc1 (a : BitVec 7)
  /-- `ENC2`, format `IF2`: `a` = value[10:6], `b` = value[5:0] (R73). -/
  | enc2 (a : BitVec 5) (b : BitVec 6)
  /-- `ENC3`, format `IF3`: `a` = value[15:12], `b` = value[11:6], `c` = value[5:0] (R74). -/
  | enc3 (a : BitVec 4) (b c : BitVec 6)
  /-- `ENC4`, format `IF4`: `a` = value[20:18], `b` = value[17:12], `c` = value[11:6], `d` = value[5:0]
  (R75); both rows of the opcode table that the form has. -/
  | enc4 (a : BitVec 3) (b c d : BitVec 6)
  /-- `ENCREJ`, format `IF0`: no fields (R49, R76). DESIGN CHOICE (log entry 13): the syntax keeps the whole
  operation word, so that decoding loses no bit; no meaning uses it. -/
  | encRej (value : Word)
deriving DecidableEq, Repr

/-- The form of an instruction: the row of the opcode table it belongs to. -/
def Instr.form : Instr → Form
  | .enc1 _ => .enc1
  | .enc2 _ _ => .enc2
  | .enc3 _ _ _ => .enc3
  | .enc4 _ _ _ _ => .enc4
  | .encRej _ => .encRej

end Sys2Proof
end

