-- ==== Sys2Proof/WellFormed.lean ====
section
/-! DEFINITION. Which instructions stand for an operation word: the field constraints of the opcode table
(R46, R48), written on the fields (R60 gives them with their reasons). -/

namespace Sys2Proof

/-- The instruction is one that some value selects: its fields lie in the range of its form, so that no
over-long form and no value above the limit is well-formed. -/
def Instr.wf : Instr → Bool
  -- 0 .. 0x7F: every 7-bit payload
  | .enc1 _ => true
  -- value >= 0x80, that is a >= 2 (R52, R60)
  | .enc2 a _ => decide (2 ≤ a.toNat)
  -- value >= 0x800, that is a > 0 or b >= 0x20 (R60)
  | .enc3 a b _ => decide (1 ≤ a.toNat ∨ 0x20 ≤ b.toNat)
  -- value >= 0x10000, that is a > 0 or b >= 0x10; value <= 0x10FFFF, that is a < 4 or a = 4 with b <= 0x0F (R60)
  | .enc4 a b _ _ =>
      decide ((1 ≤ a.toNat ∨ 0x10 ≤ b.toNat) ∧ (a.toNat < 4 ∨ (a.toNat = 4 ∧ b.toNat ≤ 0x0F)))
  -- value > 0x10FFFF (R58)
  | .encRej value => decide (Config.max4 < value.toNat)

end Sys2Proof
end

