-- ==== Sys2Proof/Decode.lean ====
section
/-! DEFINITION. Form selection (R46 to R48), field extraction (R49, R50), the decoder of an operation word and
the encoder that inverts it. The operation word has no byte order (R31): it is one 32-bit number on a
port, so the decoder takes the number and not bytes. -/

namespace Sys2Proof

/-- `Form(value)` of R47: the strict ascending range check, on all 32 bits. -/
def Form.of (value : Word) : Form :=
  if value.toNat ≤ Config.max1 then .enc1
  else if value.toNat ≤ Config.max2 then .enc2
  else if value.toNat ≤ Config.max3 then .enc3
  else if value.toNat ≤ Config.max4 then .enc4
  else .encRej

/-- A row of the selection table: `(value & mask) = pattern` selects `form` (R48; `pattern` is the table's
`match`). -/
structure SelectRow where
  form : Form
  mask : Word
  pattern : Word
deriving DecidableEq, Repr

/-- The row catches the value. -/
def SelectRow.catches (r : SelectRow) (value : Word) : Bool := value &&& r.mask == r.pattern

/-- The six rows of R48 and spec/opcode_table.json, in priority order. -/
def selectTable : List SelectRow :=
  [ ⟨.enc1, 0xFFFFFF80, 0x00000000⟩,
    ⟨.enc2, 0xFFFFF800, 0x00000000⟩,
    ⟨.enc3, 0xFFFF0000, 0x00000000⟩,
    ⟨.enc4, 0xFFF00000, 0x00000000⟩,
    ⟨.enc4, 0xFFFF0000, 0x00100000⟩,
    ⟨.encRej, 0x00000000, 0x00000000⟩ ]

/-- Selection by the ordered rows: the first row that catches the value (R48). -/
def Form.byTable (value : Word) : Option Form :=
  (selectTable.find? fun r => r.catches value).map SelectRow.form

/-- The pairwise disjoint (mask, match) pairs of spec/opcode_table.json, which need no order (R48, R62). -/
def disjointPatterns : List SelectRow :=
  [ ⟨.enc1, 0xFFFFFF80, 0x00000000⟩,
    ⟨.enc2, 0xFFFFFF80, 0x00000080⟩, ⟨.enc2, 0xFFFFFF00, 0x00000100⟩,
    ⟨.enc2, 0xFFFFFE00, 0x00000200⟩, ⟨.enc2, 0xFFFFFC00, 0x00000400⟩ ]
  ++
  [ ⟨.enc3, 0xFFFFF800, 0x00000800⟩, ⟨.enc3, 0xFFFFF000, 0x00001000⟩, ⟨.enc3, 0xFFFFE000, 0x00002000⟩,
    ⟨.enc3, 0xFFFFC000, 0x00004000⟩, ⟨.enc3, 0xFFFF8000, 0x00008000⟩,
    ⟨.enc4, 0xFFFF0000, 0x00010000⟩, ⟨.enc4, 0xFFFE0000, 0x00020000⟩, ⟨.enc4, 0xFFFC0000, 0x00040000⟩,
    ⟨.enc4, 0xFFF80000, 0x00080000⟩, ⟨.enc4, 0xFFFF0000, 0x00100000⟩ ]
  ++
  [ ⟨.encRej, 0xFFFF0000, 0x00110000⟩, ⟨.encRej, 0xFFFE0000, 0x00120000⟩, ⟨.encRej, 0xFFFC0000, 0x00140000⟩,
    ⟨.encRej, 0xFFF80000, 0x00180000⟩, ⟨.encRej, 0xFFE00000, 0x00200000⟩, ⟨.encRej, 0xFFC00000, 0x00400000⟩,
    ⟨.encRej, 0xFF800000, 0x00800000⟩, ⟨.encRej, 0xFF000000, 0x01000000⟩ ]
  ++
  [ ⟨.encRej, 0xFE000000, 0x02000000⟩, ⟨.encRej, 0xFC000000, 0x04000000⟩, ⟨.encRej, 0xF8000000, 0x08000000⟩,
    ⟨.encRej, 0xF0000000, 0x10000000⟩, ⟨.encRej, 0xE0000000, 0x20000000⟩, ⟨.encRej, 0xC0000000, 0x40000000⟩,
    ⟨.encRej, 0x80000000, 0x80000000⟩ ]

/-- The instruction a value is: the form of R47 with the fields of R49 cut out of it (R50). Total: every one
of the 2^32 values has a form (R58, R78). -/
def decode (value : Word) : Instr :=
  match Form.of value with
  | .enc1 => .enc1 (value.extractLsb' 0 7)
  | .enc2 => .enc2 (value.extractLsb' 6 5) (value.extractLsb' 0 6)
  | .enc3 => .enc3 (value.extractLsb' 12 4) (value.extractLsb' 6 6) (value.extractLsb' 0 6)
  | .enc4 => .enc4 (value.extractLsb' 18 3) (value.extractLsb' 12 6) (value.extractLsb' 6 6) (value.extractLsb' 0 6)
  | .encRej => .encRej value

/-- The operation word of an instruction: its fields at the bit positions of R49 under the zero bits of its
format. It inverts `decode` on well-formed instructions (it is not the block's operation `ENCODE`). -/
def encodeWord : Instr → Word
  | .enc1 a => 0#25 ++ a
  | .enc2 a b => 0#21 ++ a ++ b
  | .enc3 a b c => 0#16 ++ a ++ b ++ c
  | .enc4 a b c d => 0#11 ++ a ++ b ++ c ++ d
  | .encRej value => value

/-- Why a string of bits is no operation word. -/
inductive DecodeReject where
  /-- More than 32 bits: an operation has a single length of operand word, 32 bits (R45). -/
  | widerThanOperandWord
deriving DecidableEq, Repr

/-- The operand word of which `w` gives the low `nbits` bits, every bit above them zero (log entry 14). -/
def operandWord (nbits w : Nat) : Word := BitVec.ofNat 32 (w % 2 ^ nbits)

/-- The decoder of a string of `nbits` bits: it rejects, by name, what is wider than the operand word. -/
def decodeBits (nbits w : Nat) : Except DecodeReject Instr :=
  if nbits ≤ 32 then .ok (decode (operandWord nbits w)) else .error .widerThanOperandWord

/-- The instruction the decoder reads from a word of spec/opcode_table.json, bit 0 the least significant. -/
def decodeTableWord (nbits w : Nat) : Option Instr :=
  match decodeBits nbits w with
  | .ok i => some i
  | .error _ => none

end Sys2Proof
end

