-- ==== Sys2Proof/Machine/Operands.lean ====
section
/-! DEFINITION. The output byte formats (R51 to R55) and the bytes of each form in buffer order (R56): the tag in
the high bits, the payload in the low bits (R30), the most significant payload first (R28). -/

namespace Sys2Proof.Machine

/-- Format `LEAD1`, `0aaaaaaa` (R51). -/
def lead1 (a : BitVec 7) : Byte := 0b0#1 ++ a
/-- Format `LEAD2`, `110aaaaa` (R52). -/
def lead2 (a : BitVec 5) : Byte := 0b110#3 ++ a
/-- Format `LEAD3`, `1110aaaa` (R53). -/
def lead3 (a : BitVec 4) : Byte := 0b1110#4 ++ a
/-- Format `LEAD4`, `11110aaa` (R54). -/
def lead4 (a : BitVec 3) : Byte := 0b11110#5 ++ a
/-- Format `CONT`, `10pppppp` (R55). -/
def cont (p : BitVec 6) : Byte := 0b10#2 ++ p

/-- The bytes of `ENC1` (R56, R72). -/
def enc1Bytes (a : BitVec 7) : List Byte := [lead1 a]
/-- The bytes of `ENC2` (R56, R73). -/
def enc2Bytes (a : BitVec 5) (b : BitVec 6) : List Byte := [lead2 a, cont b]
/-- The bytes of `ENC3` (R56, R74). -/
def enc3Bytes (a : BitVec 4) (b c : BitVec 6) : List Byte := [lead3 a, cont b, cont c]
/-- The bytes of `ENC4` (R56, R75). -/
def enc4Bytes (a : BitVec 3) (b c d : BitVec 6) : List Byte := [lead4 a, cont b, cont c, cont d]

/-- The bytes an instruction writes, `OUT[0]` first; none for `ENCREJ` (R56). -/
def bytesOfInstr : Instr → List Byte
  | .enc1 a => enc1Bytes a
  | .enc2 a b => enc2Bytes a b
  | .enc3 a b c => enc3Bytes a b c
  | .enc4 a b c d => enc4Bytes a b c d
  | .encRej _ => []

/-- The length a form returns (R46, R56). -/
def lenOfForm : Form → Len
  | .enc1 => 1
  | .enc2 => 2
  | .enc3 => 3
  | .enc4 => 4
  | .encRej => 0

end Sys2Proof.Machine
end

