-- ==== Sys2Proof/Machine/State.lean ====
section
/-! DEFINITION. The state of the machine, the caller's requests, the reasons a step can stop, and the state
after reset. The whole machine state of the spec is the caller's buffer `OUT` (R21); beside it stand the model
parameters of R5 and D21, and the input and output of a step, which the step interface has no other place for. -/

namespace Sys2Proof.Machine

/-- The bytes of the buffer that something has written: (index, byte) pairs, indices strictly rising. An index
that is not listed has not been written: it holds an arbitrary byte (R22, R131, D22), the free value
`Config.unwrittenByte` (`State.byte`; log entry 7). -/
abbrev Memory := List Host.Cell

/-- One thing the caller does on its buffer (R142). -/
inductive Access where
  /-- Issue `ENCODE value` (R61, R142). -/
  | operation (value : Word)
  /-- The caller's own read of a byte of its buffer. -/
  | load (index : Nat)
  /-- The caller's own write of a byte of its buffer. -/
  | store (index : Nat) (byte : Byte)
  /-- Go on with a fresh buffer of `4 + extra` bytes, nothing of it written (R142; at least 4 bytes, R27). -/
  | freshBuffer (extra : Nat)
deriving DecidableEq, Repr

/-- What the caller asks of the block next (the input of a step, R10, R21). -/
inductive Request where
  /-- One access, started after the one before it returned and finished before the next (R40). -/
  | alone (access : Access)
  /-- An operation with another access to the same buffer that overlaps it in time: a schedule the model does
  not admit (R41, R136). -/
  | overlapping (value : Word) (other : Access)
deriving DecidableEq, Repr

/-- The state. `out`, `capExtra` and the two policies are the spec's; `environment`, `bufferNo`,
`draws`, `pending` and `lens` are the model's own fields (log entries 1, 2, 6, 7). -/
structure State where
  /-- `OUT`: the bytes of the buffer that have been written (R20, R25). -/
  out : Memory
  /-- `CAP - 4`: the capacity of the buffer above its least capacity (R5, R27, U7). -/
  capExtra : Nat
  /-- `TRAIL_POLICY` (R5, D21, U1). -/
  trailPolicy : Config.Policy
  /-- `REJECT_POLICY` (R5, D21, U2). -/
  rejectPolicy : Config.Policy
  /-- Which environment this encoder has: it numbers the arbitrary bytes, so that those of two encoders with
  environments of their own are not tied to each other (log entries 6, 7, 12). -/
  environment : Nat
  /-- Which of the buffers its environment has supplied `out` is: a fresh buffer has arbitrary bytes of its own. -/
  bufferNo : Nat
  /-- How many bytes the environment has drawn under `havoc`: the number of the next free byte. -/
  draws : Nat
  /-- The caller's requests that the block has not taken yet, next one first (R10, R143). -/
  pending : List Request
  /-- The results `len_1 .. len_k` returned so far, first one first (R143). -/
  lens : List Len
deriving DecidableEq, Repr

/-- Why the machine stops with a fault. The block itself has no fault (R112, R113). -/
inductive Fault where
  /-- Raised by the caller's own load or store of an index at or above `CAP`: a byte that does not exist (R25).
  Safe: nothing is claimed of such an access (log entry 10). -/
  | outsideBuffer (index : Nat)
deriving DecidableEq, Repr

/-- Why a step is refused. -/
inductive Refusal where
  /-- Raised by an arm of `exec` for an instruction that has no meaning yet (no arm does). Safe. -/
  | notModelled (mnemonic : String)
  /-- Raised by the step for two accesses that overlap in time on one buffer, one of them an operation, and by
  `stepTogether` where one buffer would be used twice at the same time (R41, R136, D8). Safe: nothing is claimed
  of it (log entry 11). -/
  | overlappingUse
  /-- Raised by `stepTogether` for a position at which the list of encoders holds none. Safe (log entry 12). -/
  | noSuchInstance
deriving DecidableEq, Repr

/-- `CAP`, the capacity of the buffer: at least 4 whatever the field holds (R5, R27). -/
def State.cap (s : State) : Nat := s.capExtra + 4

/-- Right after reset: no byte of the buffer written, so each holds an arbitrary byte (R22, R131), `CAP` and the policies
at their defaults (R5, D21), no request made and no result delivered. Reset itself sets nothing of the block's (R130). -/
def State.reset : State :=
  { out := [], capExtra := 0, trailPolicy := .untouched, rejectPolicy := .untouched, environment := 0,
    bufferNo := 0, draws := 0, pending := [], lens := [] }

end Sys2Proof.Machine
end

