-- ==== Sys2Proof/Machine/Ops.lean ====
section
/-! DEFINITION. The named operations over the buffer, the two policies, and the end of an operation. TAKING AN
EXCEPTION and returning from one are not among them: the block has no trap entry and no trap return, saves
nothing and transfers control nowhere (R112, R117, R118), and the one error is an ordinary result (R110). -/

namespace Sys2Proof.Machine

/-- The byte that has been written at an index, if something has written it. -/
def Memory.read : Memory → Nat → Option Byte
  | [], _ => none
  | (k, b) :: m, i => if i = k then some b else Memory.read m i

/-- Write one byte, in the canonical place. -/
def Memory.write : Memory → Nat → Byte → Memory
  | [], i, b => [(i, b)]
  | (k, c) :: m, i, b =>
    if i < k then (i, b) :: (k, c) :: m
    else if i = k then (i, b) :: m
    else (k, c) :: Memory.write m i b

/-- The canonical form: indices strictly rising, and each at least `least`. -/
def Memory.risingFrom (least : Nat) : Memory → Bool
  | [] => true
  | (k, _) :: m => decide (least ≤ k) && Memory.risingFrom (k + 1) m

/-- The memory is in its canonical form: it lists each written index once, in order (log entry 7: a listed byte may
equal the arbitrary byte the index held before, which no computation can tell). -/
def Memory.wf (m : Memory) : Bool := Memory.risingFrom 0 m

/-- Every listed index is below `cap`. -/
def Memory.below (cap : Nat) (m : Memory) : Bool := m.all fun c => decide (c.1 < cap)

/-- The byte that has been written to `OUT[i]`, if something has written it. -/
def State.stored (s : State) (i : Nat) : Option Byte := s.out.read i

/-- The byte `OUT[i]`: the one written last, or the arbitrary byte it held before any write (R22, R131). The one
definition of what an unlisted index reads as. -/
def State.byte (s : State) (i : Nat) : Byte :=
  (s.stored i).getD (Config.unwrittenByte s.environment s.bufferNo i)

/-- `MemWrite(i, 1, b)` of R8: `OUT[i] <- b`. The block uses it at the indices 0 to 3 only, which every buffer has
(R27), so it cannot fault (R39, R77). -/
def State.storeByte (s : State) (i : Nat) (b : Byte) : State := { s with out := s.out.write i b }

/-- Bytes to consecutive indices from `i` on, in ascending order (R33). -/
def State.storeFrom (s : State) (i : Nat) : List Byte → State
  | [] => s
  | b :: bs => State.storeFrom (s.storeByte i b) (i + 1) bs

/-- The environment draws an arbitrary byte into `OUT[i]` (D21). DESIGN CHOICE (log entry 6): the byte is the free value
of the state's environment number and draw number, so two encoders that were given the same environment number and
have drawn equally often draw the same byte; encoders with environments of their own do not. -/
def State.drawByte (s : State) (i : Nat) : State :=
  { s.storeByte i (Config.freeByte s.environment s.draws) with draws := s.draws + 1 }

/-- The environment draws an arbitrary byte into `n` consecutive indices from `i` on (D21). -/
def State.drawFrom (s : State) (i : Nat) : Nat → State
  | 0 => s
  | n + 1 => State.drawFrom (s.drawByte i) (i + 1) n

/-- The lanes from `first` to 3 under a policy: left as they are, or drawn by the environment. Indices 4 and above
are untouched under either (D21). -/
def State.settleLanes (s : State) (policy : Config.Policy) (first : Nat) : State :=
  match policy with
  | .untouched => s
  | .havoc => s.drawFrom first (Config.lanes - first)

/-- Return `len` to the caller (R10, R18). -/
def State.deliver (s : State) (len : Len) : State := { s with lens := s.lens ++ [len] }

/-- A successful operation: it writes its bytes to `OUT[0 .. len-1]` (R32), the lanes beyond them follow
`TRAIL_POLICY` (R34, U1), and it returns `len`. One atomic transition (R33). -/
def State.complete (s : State) (len : Len) (bytes : List Byte) : State :=
  ((s.storeFrom 0 bytes).settleLanes s.trailPolicy len).deliver len

/-- A rejected operation: it writes nothing (R35), the four lanes follow `REJECT_POLICY` (U2), and it returns 0
(R76, R110). -/
def State.reject (s : State) : State := (s.settleLanes s.rejectPolicy 0).deliver 0

end Sys2Proof.Machine
end

