-- ==== Sys2Proof/Machine/Ports.lean ====
section
/-! DEFINITION. The pure function `encode` of R78 and the output ports of R18, all functions of `value` alone
(R11, R99): no field of State holds them. -/

namespace Sys2Proof.Machine

/-- `len` of R78: the length result for a value. -/
def lenOf (value : Word) : Len := lenOfForm (Form.of value)

/-- `bytes` of R78: the bytes written for a value, `OUT[0]` first; as many as `lenOf` says. -/
def bytesOf (value : Word) : List Byte := bytesOfInstr (decode value)

/-- The 3-bit port `len` (R18, D6). -/
def lenPort (value : Word) : BitVec 3 := BitVec.ofNat 3 (lenOf value)

/-- The write enable `wen[i]` (R18, R32). -/
def wen (value : Word) (i : Nat) : Bool := decide (i < (lenOf value : Nat))

/-- The lane `wdata[i]` (R18): the byte to write where `wen[i] = 1`; elsewhere a free value with no effect. -/
def wdata (value : Word) (i : Nat) : Byte := ((bytesOf value)[i]?).getD (Config.idleData value i)

end Sys2Proof.Machine
end

