-- ==== Sys2Proof/Machine/Caller.lean ====
section
/-! DEFINITION. The caller as host (R142): what it does to its buffer between operations, and how the next
request is taken. -/

namespace Sys2Proof.Machine

/-- The caller reads a byte of its buffer: an index below `CAP`; reading changes nothing (R29, R142). -/
def callerLoad (i : Nat) (s : State) : Host.Outcome State Fault Refusal :=
  if i < s.cap then .next s else .fault (.outsideBuffer i)

/-- The caller writes a byte of its buffer: an index below `CAP` (R142). -/
def callerStore (i : Nat) (b : Byte) (s : State) : Host.Outcome State Fault Refusal :=
  if i < s.cap then .next (s.storeByte i b) else .fault (.outsideBuffer i)

/-- The caller goes on with a fresh buffer of `4 + extra` bytes (R142), of which nothing is written and
each byte is arbitrary anew (R131). -/
def callerFreshBuffer (extra : Nat) (s : State) : Host.Outcome State Fault Refusal :=
  .next { s with out := [], capExtra := extra, bufferNo := s.bufferNo + 1 }

/-- The state with the caller's next request taken off. -/
def State.taken (s : State) : State := { s with pending := s.pending.tail }

/-- The caller issues `ENCODE value` before everything it has asked for so far. -/
def State.issueFirst (s : State) (value : Word) : State :=
  { s with pending := .alone (.operation value) :: s.pending }

/-- The caller issues the operation of a word of the opcode table first. DESIGN CHOICE (log entry 14): of a word of
more than 32 bits, which the decoder refuses, nothing is issued (R45: one length of operand word). -/
def State.issueTableWord (s : State) (nbits w : Nat) : State :=
  if nbits ≤ 32 then s.issueFirst (operandWord nbits w) else s

end Sys2Proof.Machine
end

