-- ==== Sys2Proof/Machine/Encode.lean ====
section
/-! DEFINITION. The meanings of the four forms that encode (R72 to R75). -/

namespace Sys2Proof.Machine

/-- `ENC1`, the 1-byte form (R72). -/
def execEnc1 (a : BitVec 7) (s : State) : Host.Outcome State Fault Refusal :=
  .next (s.complete 1 (enc1Bytes a))

/-- `ENC2`, the 2-byte form (R73). -/
def execEnc2 (a : BitVec 5) (b : BitVec 6) (s : State) : Host.Outcome State Fault Refusal :=
  .next (s.complete 2 (enc2Bytes a b))

/-- `ENC3`, the 3-byte form (R74). -/
def execEnc3 (a : BitVec 4) (b c : BitVec 6) (s : State) : Host.Outcome State Fault Refusal :=
  .next (s.complete 3 (enc3Bytes a b c))

/-- `ENC4`, the 4-byte form (R75). -/
def execEnc4 (a : BitVec 3) (b c d : BitVec 6) (s : State) : Host.Outcome State Fault Refusal :=
  .next (s.complete 4 (enc4Bytes a b c d))

end Sys2Proof.Machine
end

