-- ==== Sys2Proof/Machine/Reject.lean ====
section
/-! DEFINITION. The meaning of the rejecting form (R76). -/

namespace Sys2Proof.Machine

/-- `ENCREJ`, the rejecting form: an ordinary step that returns 0 (R76, R112). No bit of the value reaches an
output (R49). -/
def execEncRej (s : State) : Host.Outcome State Fault Refusal := .next s.reject

end Sys2Proof.Machine
end

