-- ==== Sys2Proof/Machine/Dispatch.lean ====
section
/-! DEFINITION. One arm per form of `ENCODE`. -/

namespace Sys2Proof.Machine

/-- One `ENCODE` on the buffer of the state (R70). -/
def exec (i : Instr) (s : State) : Host.Outcome State Fault Refusal :=
  match i with
  | .enc1 a => Sys2Proof.Machine.execEnc1 a s
  | .enc2 a b => Sys2Proof.Machine.execEnc2 a b s
  | .enc3 a b c => Sys2Proof.Machine.execEnc3 a b c s
  | .enc4 a b c d => Sys2Proof.Machine.execEnc4 a b c d s
  | .encRej _ => Sys2Proof.Machine.execEncRej s

end Sys2Proof.Machine
end

