-- ==== Sys2Proof/Machine/Requests.lean ====
section
/-! DEFINITION. How a request of the caller is carried out. The block fetches no instructions and has no pc (R13): the
operation word comes from the caller (R10, R71). -/

namespace Sys2Proof.Machine

/-- One access of the caller, with nothing else under way on the buffer. -/
def access (a : Access) (s : State) : Host.Outcome State Fault Refusal :=
  match a with
  | .operation value => exec (decode value) s
  | .load i => callerLoad i s
  | .store i b => callerStore i b s
  | .freshBuffer extra => callerFreshBuffer extra s

/-- The caller's next request is taken and carried out: an operation is one atomic transition (R10, R33). With no
request made, nothing happens (R22: no write occurs; log entry 3). A request that overlaps an operation with another
access to the buffer is refused (R41). -/
def takeRequest (s : State) : Host.Outcome State Fault Refusal :=
  match s.pending with
  | [] => .next s
  | .alone a :: _ => access a s.taken
  | .overlapping _ _ :: _ => .refused .overlappingUse

end Sys2Proof.Machine
end

