-- ==== Sys2Proof/Machine/Step.lean ====
section
/-! DEFINITION. One step of the machine, and how the host places an operation word before it. -/

namespace Sys2Proof.Machine

/-- One step: the caller's next request (R10). -/
def step (s : State) : Host.Outcome State Fault Refusal := takeRequest s

/-- The state with the operation of this table word as the caller's next request (log entry 4);
of a word wider than the operand word nothing is issued (log entry 14). -/
def State.withFetchWord (s : State) (nbits w : Nat) : State := s.issueTableWord nbits w

end Sys2Proof.Machine
end

