-- ==== Sys2Proof/Machine/Concurrent.lean ====
section
/-! DEFINITION. Several encoders, or several uses of one at the same time (R41, R124): each with a buffer of its
own. They share no state, so a system of them is a list of states (log entry 12). -/

namespace Sys2Proof.Machine

/-- `n` encoders right after reset, each with a buffer and an environment of its own: the k-th has environment number
`k`, so that no two arbitrary bytes of different encoders are tied to each other (R41, R124; log entries 6, 7, 12). -/
def systemReset (n : Nat) : List State :=
  (List.range n).map fun k => { State.reset with environment := k }

/-- One encoder of the system takes its step; the others are as they were (R124). DESIGN CHOICE (log entry 12): where that
step stops, by its caller's fault or by a refusal, the outcome for the whole list is that stop. -/
def stepAt (k : Nat) (sys : List State) : Host.Outcome (List State) Fault Refusal :=
  match sys[k]? with
  | none => .refused .noSuchInstance
  | some s =>
    match step s with
    | .next t => .next (sys.set k t)
    | .fault r => .fault r
    | .refused r => .refused r

/-- The named encoders take one step each, in the order given. DESIGN CHOICE (log entry 12): the first step that stops, in
that order, is the outcome of the whole list, and the steps of the other encoders are not shown; the spec does not say what
a caller's access beyond its own buffer does to another encoder. -/
def stepEach : List Nat → List State → Host.Outcome (List State) Fault Refusal
  | [], sys => .next sys
  | k :: ks, sys =>
    match stepAt k sys with
    | .next sys' => stepEach ks sys'
    | .fault r => .fault r
    | .refused r => .refused r

/-- The named encoders take one step each AT THE SAME TIME: admitted when no buffer is named twice, and then the
same as one after another (R41); refused when two of the steps would use one buffer (R41, D8). What a stop of one of
them does to the rest is the model's choice (`stepEach`, log entry 12). -/
def stepTogether (ks : List Nat) (sys : List State) : Host.Outcome (List State) Fault Refusal :=
  if ks.Nodup then stepEach ks sys else .refused .overlappingUse

end Sys2Proof.Machine
end

