-- ==== Sys2Proof/Machine/Flags.lean ====
section
/-! DEFINITION. The block has no flags, condition codes or predicates, and nothing is latched (R14): there is no
flag computation. What stands here is the one error condition, read off the length result (R110, D16). -/

namespace Sys2Proof.Machine

/-- OutOfRange: `len = 0` is the whole signal (R110, D16). -/
def outOfRange (len : Len) : Bool := len == 0

end Sys2Proof.Machine
end

