-- ==== Sys2Proof/Safety.lean ====
section
/-! DEFINITION. The terms claims are stated in: the invariant of the state, the caller that keeps its obligations
(`70_reset_and_hazards.md` section 2), and the specification devices of `41_properties.md` and `30_encoding.md`
that are no part of the block (R94, R57, R60). -/

namespace Sys2Proof.Machine

/-- The invariant: the buffer's memory is in canonical form and lists no index that the buffer does not have. -/
def State.inv (s : State) : Bool := s.out.wf && s.out.below s.cap

/-- This hardware: both policies at the setting of the spec's block (R5, R34, R35, D21). -/
def State.untouching (s : State) : Prop := s.trailPolicy = .untouched ∧ s.rejectPolicy = .untouched

/-- `t` has the capacity, the policies, the environment, the buffer and the pending requests of `s`: what no operation
changes. -/
def State.sameSetting (s t : State) : Prop :=
  t.capExtra = s.capExtra ∧ t.trailPolicy = s.trailPolicy ∧ t.rejectPolicy = s.rejectPolicy ∧
    t.environment = s.environment ∧ t.bufferNo = s.bufferNo ∧ t.pending = s.pending

/-- `OUT[i]` is untouched from `s` to `t` (R9): no write to it, so that it holds in `t` what it held in `s`. -/
def State.keeps (s t : State) (i : Nat) : Prop := t.stored i = s.stored i ∧ t.byte i = s.byte i

/-- What a correct caller reads after an operation: `OUT[0 .. len-1]` for the `len` that was returned last, and
nothing where that is 0 (R134, R135). -/
def State.lastResult (s : State) : List Byte :=
  match s.lens.getLast? with
  | none => []
  | some n => (List.range n).map s.byte

/-- The access is to a byte the buffer has (R25, R142); an operation and a fresh buffer always may be asked for. -/
def Access.admitted (cap : Nat) : Access → Bool
  | .operation _ => true
  | .load i => decide (i < cap)
  | .store i _ => decide (i < cap)
  | .freshBuffer _ => true

/-- The capacity after the access. -/
def Access.capAfter (cap : Nat) : Access → Nat
  | .freshBuffer extra => extra + 4
  | _ => cap

/-- The caller keeps its obligations in all it asks for: nothing overlaps an operation (R136), and its own accesses
stay inside its buffer (R142). -/
def admittedRequests (cap : Nat) : List Request → Bool
  | [] => true
  | .alone a :: rest => a.admitted cap && admittedRequests (a.capAfter cap) rest
  | .overlapping _ _ :: _ => false

end Sys2Proof.Machine

namespace Sys2Proof.Safety

/-- `Payload` of R94, as a number. DESIGN CHOICE (log entry 18): for a list of none or of more than four bytes, for which R94
defines none, it is a free value. -/
def payload : List Byte → Nat
  | [b0] => (b0 &&& 0x7F).toNat
  | [b0, b1] => (b0 &&& 0x1F).toNat * 64 + (b1 &&& 0x3F).toNat
  | [b0, b1, b2] => (b0 &&& 0x0F).toNat * 4096 + (b1 &&& 0x3F).toNat * 64 + (b2 &&& 0x3F).toNat
  | [b0, b1, b2, b3] =>
      (b0 &&& 0x07).toNat * 262144 + (b1 &&& 0x3F).toNat * 4096 + (b2 &&& 0x3F).toNat * 64 + (b3 &&& 0x3F).toNat
  | bytes => Config.payloadElsewhere bytes

/-- `Payload` of R94 as it is written there: each masked byte at the width of its mask, concatenated. DESIGN
CHOICE (log entry 18): for a list of none or of more than four bytes it is the same free value as `payload`. -/
def payloadBits : List Byte → Nat
  | [b0] => (b0.setWidth 7).toNat
  | [b0, b1] => (b0.setWidth 5 ++ b1.setWidth 6).toNat
  | [b0, b1, b2] => (b0.setWidth 4 ++ b1.setWidth 6 ++ b2.setWidth 6).toNat
  | [b0, b1, b2, b3] => (b0.setWidth 3 ++ b1.setWidth 6 ++ b2.setWidth 6 ++ b3.setWidth 6).toNat
  | bytes => Config.payloadElsewhere bytes

/-- The leading one bits of the low `n` bits of a byte, from bit `n - 1` down. -/
def leadingOnesBelow : Nat → Byte → Nat
  | 0, _ => 0
  | n + 1, b => if b.getLsbD n then leadingOnesBelow n b + 1 else 0

/-- The number of leading one bits of a byte, from bit 7 down to the first zero bit (R57). -/
def leadingOnes (b : Byte) : Nat := leadingOnesBelow 8 b

/-- The byte has format `CONT` (R55): its top two bits are `10`. -/
def isCont (b : Byte) : Bool := b.extractLsb' 6 2 == 0b10#2

/-- The byte sequences that R60 leaves: no lead byte and no pair of lead and second byte that it says is never
produced, every further byte of format `CONT`, and as many bytes as the lead byte says. -/
def legalSequence : List Byte → Bool
  | [b0] => decide (b0.toNat ≤ 0x7F)
  | [b0, b1] => decide (0xC2 ≤ b0.toNat ∧ b0.toNat ≤ 0xDF) && isCont b1
  | [b0, b1, b2] =>
      decide (0xE0 ≤ b0.toNat ∧ b0.toNat ≤ 0xEF) && isCont b1 && isCont b2
        && decide (b0.toNat = 0xE0 → 0xA0 ≤ b1.toNat)
  | [b0, b1, b2, b3] =>
      decide (0xF0 ≤ b0.toNat ∧ b0.toNat ≤ 0xF4) && isCont b1 && isCont b2 && isCont b3
        && decide (b0.toNat = 0xF0 → 0x90 ≤ b1.toNat) && decide (b0.toNat = 0xF4 → b1.toNat ≤ 0x8F)
  | _ => false

/-- The class maxima `M_1` .. `M_4` (R5, R93). -/
def classMax : Nat → Nat
  | 1 => Config.max1
  | 2 => Config.max2
  | 3 => Config.max3
  | _ => Config.max4

/-- Encoded forms laid end to end, the first form first (R28, R100): the caller's stream. -/
def stream (values : List Word) : List Byte := (values.map Machine.bytesOf).flatten

end Sys2Proof.Safety
end

