-- ==== Sys2Proof/Certificates/Slice0/Obligations.lean ====
section
/-! DEFINITION. The statements for the provers, each made from the numbered rules of spec/. -/

open Sys2Proof Sys2Proof.Machine Sys2Proof.Safety

/-! ### Selecting the form and cutting the fields -/

/-- R46, R47: the value selects exactly one form by closed ranges, with these sizes and lengths; the decoder's
instruction has that form, and the ordered test is the same function. -/
def Obligations.FormIsSelectedByRange : Prop :=
  (∀ v : Word,
    (Form.of v = .enc1 ↔ v.toNat ≤ 127) ∧
    (Form.of v = .enc2 ↔ 128 ≤ v.toNat ∧ v.toNat ≤ 2047) ∧
    (Form.of v = .enc3 ↔ 2048 ≤ v.toNat ∧ v.toNat ≤ 65535) ∧
    (Form.of v = .enc4 ↔ 65536 ≤ v.toNat ∧ v.toNat ≤ 1114111) ∧
    (Form.of v = .encRej ↔ 1114112 ≤ v.toNat) ∧
    (decode v).form =
      (if v ≤ 0x0000007F#32 then .enc1 else if v ≤ 0x000007FF#32 then .enc2 else if v ≤ 0x0000FFFF#32 then .enc3
       else if v ≤ 0x0010FFFF#32 then .enc4 else .encRej) ∧
    (lenOf v : Nat) =
      match (decode v).form with
      | .enc1 => 1
      | .enc2 => 2
      | .enc3 => 3
      | .enc4 => 4
      | .encRej => 0) ∧
  Nat.card { v : Word // Form.of v = .enc1 } = 128 ∧
  Nat.card { v : Word // Form.of v = .enc2 } = 1920 ∧
  Nat.card { v : Word // Form.of v = .enc3 } = 63488 ∧
  Nat.card { v : Word // Form.of v = .enc4 } = 1048576 ∧
  Nat.card { v : Word // Form.of v = .encRej } = 4293853184

/-- R48: the six ordered mask and match rows select the same form, each form has its exact condition on the bits,
and exactly one of the disjoint (mask, match) pairs catches a value, one of its own form. -/
def Obligations.MaskAndMatchSelectTheSameForm : Prop :=
  (selectTable.map fun r => (r.form, r.mask, r.pattern)) =
    [ (.enc1, 0xFFFFFF80#32, 0x00000000#32), (.enc2, 0xFFFFF800#32, 0x00000000#32),
      (.enc3, 0xFFFF0000#32, 0x00000000#32), (.enc4, 0xFFF00000#32, 0x00000000#32),
      (.enc4, 0xFFFF0000#32, 0x00100000#32), (.encRej, 0x00000000#32, 0x00000000#32) ] ∧
  ∀ v : Word,
    Form.byTable v = some (Form.of v) ∧
    (Form.of v = .enc1 ↔ v.extractLsb' 7 25 = 0) ∧
    (Form.of v = .enc2 ↔ v.extractLsb' 11 21 = 0 ∧ v.extractLsb' 7 4 ≠ 0) ∧
    (Form.of v = .enc3 ↔ v.extractLsb' 16 16 = 0 ∧ v.extractLsb' 11 5 ≠ 0) ∧
    (Form.of v = .enc4 ↔
      v.extractLsb' 21 11 = 0 ∧ 1 ≤ (v.extractLsb' 16 5).toNat ∧ (v.extractLsb' 16 5).toNat ≤ 16) ∧
    (Form.of v = .encRej ↔ v.extractLsb' 21 11 ≠ 0 ∨ 17 ≤ (v.extractLsb' 16 5).toNat) ∧
    (disjointPatterns.filter fun r => r.catches v).map SelectRow.form = [Form.of v]

/-- R49, R50: the fields of each form are shifts and masks of the value, the bits above them are zero, the mask on
the top field may be dropped, and the fields concatenated are the low bits of the value; a rejected value has no
field and none of its bits reaches an output. -/
def Obligations.FieldsAreShiftsAndMasks : Prop :=
  (∀ (v : Word) (a : BitVec 7), decode v = .enc1 a →
    a = v.extractLsb' 0 7 ∧ a.setWidth 32 = v &&& 0x7F#32 ∧ v.extractLsb' 7 25 = 0 ∧ a = v.setWidth 7) ∧
  (∀ (v : Word) (a : BitVec 5) (b : BitVec 6), decode v = .enc2 a b →
    a = v.extractLsb' 6 5 ∧ a.setWidth 32 = (v >>> 6) &&& 0x1F#32 ∧ a.setWidth 32 = v >>> 6 ∧
    b = v.extractLsb' 0 6 ∧ b.setWidth 32 = v &&& 0x3F#32 ∧
    v.extractLsb' 11 21 = 0 ∧ a ++ b = v.setWidth 11) ∧
  (∀ (v : Word) (a : BitVec 4) (b c : BitVec 6), decode v = .enc3 a b c →
    a = v.extractLsb' 12 4 ∧ a.setWidth 32 = (v >>> 12) &&& 0x0F#32 ∧ a.setWidth 32 = v >>> 12 ∧
    b = v.extractLsb' 6 6 ∧ b.setWidth 32 = (v >>> 6) &&& 0x3F#32 ∧
    c = v.extractLsb' 0 6 ∧ c.setWidth 32 = v &&& 0x3F#32 ∧
    v.extractLsb' 16 16 = 0 ∧ a ++ b ++ c = v.setWidth 16) ∧
  (∀ (v : Word) (a : BitVec 3) (b c d : BitVec 6), decode v = .enc4 a b c d →
    a = v.extractLsb' 18 3 ∧ a.setWidth 32 = (v >>> 18) &&& 0x07#32 ∧ a.setWidth 32 = v >>> 18 ∧
    b = v.extractLsb' 12 6 ∧ b.setWidth 32 = (v >>> 12) &&& 0x3F#32 ∧
    c = v.extractLsb' 6 6 ∧ c.setWidth 32 = (v >>> 6) &&& 0x3F#32 ∧
    d = v.extractLsb' 0 6 ∧ d.setWidth 32 = v &&& 0x3F#32 ∧
    v.extractLsb' 21 11 = 0 ∧ a ++ b ++ c ++ d = v.setWidth 21) ∧
  (∀ (v w x : Word) (s : State), decode v = .encRej x → Form.of w = .encRej → exec (decode v) s = exec (decode w) s)

/-- Decoding and encoding agree, both ways: no bit of an operation word is lost, and every value is the word of
exactly one well-formed instruction (from `30_encoding.md` sections 1 and 2). -/
def Obligations.DecodeAndEncodeWordAgree : Prop :=
  (∀ i : Instr, i.wf = true → decode (encodeWord i) = i) ∧
  (∀ v : Word, (decode v).wf = true ∧ encodeWord (decode v) = v)

/-- A table word of at most 32 bits decodes as the number it is; a wider one is refused (R45: one length of operand
word; padding is log entry 14). -/
def Obligations.TableWordsDecodeAsNumbers : Prop :=
  (∀ nbits w : Nat, nbits ≤ 32 → w < 2 ^ nbits → decodeTableWord nbits w = some (decode (BitVec.ofNat 32 w))) ∧
  (∀ nbits w : Nat, 32 < nbits → decodeTableWord nbits w = none ∧
    decodeBits nbits w = .error .widerThanOperandWord)

/-- Words of each form decode to the fields that `95_test_vectors.md` lists for them. -/
def Obligations.SampleWordsDecode : Prop :=
  decodeTableWord 32 0x00000041 = some (.enc1 0x41#7) ∧
  decodeTableWord 32 0x000000A9 = some (.enc2 0x02#5 0x29#6) ∧
  decodeTableWord 32 0x000020AC = some (.enc3 0x2#4 0x02#6 0x2C#6) ∧
  decodeTableWord 32 0x0001F600 = some (.enc4 0x0#3 0x1F#6 0x18#6 0x00#6) ∧
  decodeTableWord 32 0x0010FFFF = some (.enc4 0x4#3 0x0F#6 0x3F#6 0x3F#6) ∧
  decodeTableWord 32 0x80000041 = some (.encRej 0x80000041#32)

/-- R58: everything above the limit is rejected, the values that would fit 21 payload bits and those with a one
above bit 20 among them; a rejected value does not trap, and every one of the 2^32 values has a behaviour. -/
def Obligations.RejectedSpaceIsEverythingAboveTheLimit : Prop :=
  ∀ (v : Word) (s : State),
    (0x00110000 ≤ v.toNat → Form.of v = .encRej) ∧
    (0x110000 ≤ v.toNat → v.toNat ≤ 0x1FFFFF → Form.of v = .encRej) ∧
    (v.extractLsb' 21 11 ≠ 0 → Form.of v = .encRej) ∧
    (Form.of v = .encRej → 1114111 < v.toNat ∧ ∃ t, exec (decode v) s = .next t ∧ t.lens = s.lens ++ [0]) ∧
    (∃ t, exec (decode v) s = .next t)

/-- R59: no value inside the valid range is excluded; 0xD800 .. 0xDFFF, 0xFFFE and 0xFFFF are encoded in 3 bytes as
any other value of their range. -/
def Obligations.NoValueInRangeIsExcluded : Prop :=
  (∀ v : Word, v.toNat ≤ 1114111 → lenOf v ≠ 0 ∧ bytesOf v ≠ []) ∧
  (∀ v : Word, 2048 ≤ v.toNat → v.toNat ≤ 65535 →
    lenOf v = 3 ∧
    bytesOf v = [0b1110#4 ++ v.extractLsb' 12 4, 0b10#2 ++ v.extractLsb' 6 6, 0b10#2 ++ v.extractLsb' 0 6]) ∧
  bytesOf 0xD800#32 = [0xED#8, 0xA0#8, 0x80#8]

/-! ### The bytes -/

/-- R51 to R55: each byte format bit by bit, the bytes it can hold, and the bytes the block produces in it. -/
def Obligations.ByteFormatsAndTheirRanges : Prop :=
  (∀ a : BitVec 7, (lead1 a).extractLsb' 7 1 = 0b0#1 ∧ (lead1 a).extractLsb' 0 7 = a ∧ lead1 a = a.setWidth 8) ∧
  (∀ a : BitVec 5, (lead2 a).extractLsb' 5 3 = 0b110#3 ∧ (lead2 a).extractLsb' 0 5 = a ∧
    lead2 a = 0xC0#8 ||| a.setWidth 8) ∧
  (∀ a : BitVec 4, (lead3 a).extractLsb' 4 4 = 0b1110#4 ∧ (lead3 a).extractLsb' 0 4 = a ∧
    lead3 a = 0xE0#8 ||| a.setWidth 8) ∧
  (∀ a : BitVec 3, (lead4 a).extractLsb' 3 5 = 0b11110#5 ∧ (lead4 a).extractLsb' 0 3 = a ∧
    lead4 a = 0xF0#8 ||| a.setWidth 8) ∧
  (∀ p : BitVec 6, (cont p).extractLsb' 6 2 = 0b10#2 ∧ (cont p).extractLsb' 0 6 = p ∧
    cont p = 0x80#8 ||| p.setWidth 8) ∧
  (∀ b : Byte,
    ((∃ a, lead1 a = b) ↔ b.toNat ≤ 0x7F) ∧
    ((∃ a, lead2 a = b) ↔ 0xC0 ≤ b.toNat ∧ b.toNat ≤ 0xDF) ∧
    ((∃ a, lead3 a = b) ↔ 0xE0 ≤ b.toNat ∧ b.toNat ≤ 0xEF) ∧
    ((∃ a, lead4 a = b) ↔ 0xF0 ≤ b.toNat ∧ b.toNat ≤ 0xF7) ∧
    ((∃ p, cont p = b) ↔ 0x80 ≤ b.toNat ∧ b.toNat ≤ 0xBF) ∧
    ((∃ v, lenOf v = 1 ∧ (bytesOf v)[0]? = some b) ↔ b.toNat ≤ 0x7F) ∧
    ((∃ v, lenOf v = 2 ∧ (bytesOf v)[0]? = some b) ↔ 0xC2 ≤ b.toNat ∧ b.toNat ≤ 0xDF) ∧
    ((∃ v, lenOf v = 3 ∧ (bytesOf v)[0]? = some b) ↔ 0xE0 ≤ b.toNat ∧ b.toNat ≤ 0xEF) ∧
    ((∃ v, lenOf v = 4 ∧ (bytesOf v)[0]? = some b) ↔ 0xF0 ≤ b.toNat ∧ b.toNat ≤ 0xF4) ∧
    (∀ i : Nat, 1 ≤ i → i ≤ 3 → ((∃ v, (bytesOf v)[i]? = some b) ↔ 0x80 ≤ b.toNat ∧ b.toNat ≤ 0xBF)))

/-- R56: the layout of the whole encoded form, field by field, and that the leading ones of the lead byte agree with
the length. -/
def Obligations.EncodedFormLayout : Prop :=
  ∀ v : Word,
    (∀ a, decode v = .enc1 a → lenOf v = 1 ∧ bytesOf v = [0b0#1 ++ a]) ∧
    (∀ a b, decode v = .enc2 a b → lenOf v = 2 ∧ bytesOf v = [0b110#3 ++ a, 0b10#2 ++ b]) ∧
    (∀ a b c, decode v = .enc3 a b c → lenOf v = 3 ∧ bytesOf v = [0b1110#4 ++ a, 0b10#2 ++ b, 0b10#2 ++ c]) ∧
    (∀ a b c d, decode v = .enc4 a b c d →
      lenOf v = 4 ∧ bytesOf v = [0b11110#5 ++ a, 0b10#2 ++ b, 0b10#2 ++ c, 0b10#2 ++ d]) ∧
    (∀ x, decode v = .encRej x → lenOf v = 0 ∧ bytesOf v = []) ∧
    (∀ b, (bytesOf v)[0]? = some b → leadingOnes b = if lenOf v = 1 then 0 else (lenOf v : Nat))

/-- R57: the number of leading one bits identifies the byte's format and its range, and where a form starts. -/
def Obligations.LeadingOnesTellTheByteKinds : Prop :=
  (∀ b : Byte,
    (leadingOnes b = 0 ↔ ∃ a, lead1 a = b) ∧ (leadingOnes b = 0 ↔ b.toNat ≤ 0x7F) ∧
    (leadingOnes b = 1 ↔ ∃ p, cont p = b) ∧ (leadingOnes b = 1 ↔ 0x80 ≤ b.toNat ∧ b.toNat ≤ 0xBF) ∧
    (leadingOnes b = 2 ↔ ∃ a, lead2 a = b) ∧ (leadingOnes b = 2 ↔ 0xC0 ≤ b.toNat ∧ b.toNat ≤ 0xDF) ∧
    (leadingOnes b = 3 ↔ ∃ a, lead3 a = b) ∧ (leadingOnes b = 3 ↔ 0xE0 ≤ b.toNat ∧ b.toNat ≤ 0xEF) ∧
    (leadingOnes b = 4 ↔ ∃ a, lead4 a = b) ∧ (leadingOnes b = 4 ↔ 0xF0 ≤ b.toNat ∧ b.toNat ≤ 0xF7) ∧
    (5 ≤ leadingOnes b ↔ 0xF8 ≤ b.toNat)) ∧
  (∀ (v : Word) (i : Nat) (b : Byte), (bytesOf v)[i]? = some b →
    leadingOnes b < 5 ∧
    (i = 0 → (leadingOnes b = 0 ∧ lenOf v = 1) ∨ (2 ≤ leadingOnes b ∧ leadingOnes b = (lenOf v : Nat))) ∧
    (1 ≤ i → leadingOnes b = 1))

/-- R60: the byte sequences the block produces are exactly those its table of never produced lead bytes and pairs
leaves; 243 byte values occur and the 13 others never do. -/
def Obligations.ProducedSequencesAreExactlyTheLegalOnes : Prop :=
  (∀ B : List Byte, (∃ v : Word, v.toNat ≤ 1114111 ∧ bytesOf v = B) ↔ legalSequence B = true) ∧
  (∀ b : Byte, (∃ v : Word, b ∈ bytesOf v) ↔ ¬ (b = 0xC0#8 ∨ b = 0xC1#8 ∨ 0xF5 ≤ b.toNat)) ∧
  Nat.card { b : Byte // ∃ v : Word, b ∈ bytesOf v } = 243

/-! ### The operation and its five forms -/

/-- R70: the operation in full, on the hardware of the spec (both policies untouched). -/
def Obligations.EncodeOperationInFull : Prop :=
  ∀ (v : Word) (s : State), s.untouching →
    ∃ t, exec (decode v) s = .next t ∧ s.sameSetting t ∧ t.draws = s.draws ∧
      if v.toNat ≤ 0x7F then
        t.lens = s.lens ++ [1] ∧ t.byte 0 = 0b0#1 ++ v.extractLsb' 0 7 ∧ ∀ i, 1 ≤ i → s.keeps t i
      else if v.toNat ≤ 0x7FF then
        t.lens = s.lens ++ [2] ∧ t.byte 0 = 0b110#3 ++ v.extractLsb' 6 5 ∧
          t.byte 1 = 0b10#2 ++ v.extractLsb' 0 6 ∧ ∀ i, 2 ≤ i → s.keeps t i
      else if v.toNat ≤ 0xFFFF then
        t.lens = s.lens ++ [3] ∧ t.byte 0 = 0b1110#4 ++ v.extractLsb' 12 4 ∧
          t.byte 1 = 0b10#2 ++ v.extractLsb' 6 6 ∧ t.byte 2 = 0b10#2 ++ v.extractLsb' 0 6 ∧
          ∀ i, 3 ≤ i → s.keeps t i
      else if v.toNat ≤ 0x10FFFF then
        t.lens = s.lens ++ [4] ∧ t.byte 0 = 0b11110#5 ++ v.extractLsb' 18 3 ∧
          t.byte 1 = 0b10#2 ++ v.extractLsb' 12 6 ∧ t.byte 2 = 0b10#2 ++ v.extractLsb' 6 6 ∧
          t.byte 3 = 0b10#2 ++ v.extractLsb' 0 6 ∧ ∀ i, 4 ≤ i → s.keeps t i
      else t.lens = s.lens ++ [0] ∧ ∀ i, s.keeps t i

/-- R72: `ENC1` with its frame. -/
def Obligations.Enc1WritesTheValueAsOneByte : Prop :=
  (∀ (v : Word) (s : State), v.toNat ≤ 127 → s.trailPolicy = .untouched →
    decode v = .enc1 (v.extractLsb' 0 7) ∧
    ∃ t, exec (.enc1 (v.extractLsb' 0 7)) s = .next t ∧
      t.byte 0 = 0b0#1 ++ v.extractLsb' 0 7 ∧ t.byte 0 = (v &&& 0x7F#32).setWidth 8 ∧
      t.byte 0 = v.setWidth 8 ∧
      (∀ i, 1 ≤ i → s.keeps t i) ∧ t.lens = s.lens ++ [1] ∧ s.sameSetting t ∧ t.draws = s.draws) ∧
  (∀ (v : Word) (a : BitVec 7), decode v = .enc1 a → v.toNat ≤ 127)

/-- R73: `ENC2` with its frame; no value below 128 has this form. -/
def Obligations.Enc2WritesTwoBytes : Prop :=
  (∀ (v : Word) (s : State), 128 ≤ v.toNat → v.toNat ≤ 2047 → s.trailPolicy = .untouched →
    decode v = .enc2 (v.extractLsb' 6 5) (v.extractLsb' 0 6) ∧
    ∃ t, exec (.enc2 (v.extractLsb' 6 5) (v.extractLsb' 0 6)) s = .next t ∧
      t.byte 0 = 0b110#3 ++ v.extractLsb' 6 5 ∧ t.byte 0 = (0xC0#32 ||| v >>> 6).setWidth 8 ∧
      t.byte 1 = 0b10#2 ++ v.extractLsb' 0 6 ∧ t.byte 1 = (0x80#32 ||| (v &&& 0x3F#32)).setWidth 8 ∧
      (∀ i, 2 ≤ i → s.keeps t i) ∧ t.lens = s.lens ++ [2] ∧ s.sameSetting t ∧ t.draws = s.draws) ∧
  (∀ (v : Word) (a : BitVec 5) (b : BitVec 6), decode v = .enc2 a b → 128 ≤ v.toNat ∧ v.toNat ≤ 2047)

/-- R74: `ENC3` with its frame. -/
def Obligations.Enc3WritesThreeBytes : Prop :=
  (∀ (v : Word) (s : State), 2048 ≤ v.toNat → v.toNat ≤ 65535 → s.trailPolicy = .untouched →
    decode v = .enc3 (v.extractLsb' 12 4) (v.extractLsb' 6 6) (v.extractLsb' 0 6) ∧
    ∃ t, exec (.enc3 (v.extractLsb' 12 4) (v.extractLsb' 6 6) (v.extractLsb' 0 6)) s = .next t ∧
      t.byte 0 = 0b1110#4 ++ v.extractLsb' 12 4 ∧ t.byte 0 = (0xE0#32 ||| v >>> 12).setWidth 8 ∧
      t.byte 1 = 0b10#2 ++ v.extractLsb' 6 6 ∧
      t.byte 1 = (0x80#32 ||| ((v >>> 6) &&& 0x3F#32)).setWidth 8 ∧
      t.byte 2 = 0b10#2 ++ v.extractLsb' 0 6 ∧ t.byte 2 = (0x80#32 ||| (v &&& 0x3F#32)).setWidth 8 ∧
      (∀ i, 3 ≤ i → s.keeps t i) ∧ t.lens = s.lens ++ [3] ∧ s.sameSetting t ∧ t.draws = s.draws) ∧
  (∀ (v : Word) (a : BitVec 4) (b c : BitVec 6), decode v = .enc3 a b c → 2048 ≤ v.toNat ∧ v.toNat ≤ 65535)

/-- R75: `ENC4` with its frame; 0x110000 .. 0x1FFFFF are not given this form. -/
def Obligations.Enc4WritesFourBytes : Prop :=
  (∀ (v : Word) (s : State), 65536 ≤ v.toNat → v.toNat ≤ 1114111 →
    decode v = .enc4 (v.extractLsb' 18 3) (v.extractLsb' 12 6) (v.extractLsb' 6 6) (v.extractLsb' 0 6) ∧
    ∃ t, exec (.enc4 (v.extractLsb' 18 3) (v.extractLsb' 12 6) (v.extractLsb' 6 6) (v.extractLsb' 0 6)) s = .next t ∧
      t.byte 0 = 0b11110#5 ++ v.extractLsb' 18 3 ∧ t.byte 0 = (0xF0#32 ||| v >>> 18).setWidth 8 ∧
      t.byte 1 = 0b10#2 ++ v.extractLsb' 12 6 ∧
      t.byte 1 = (0x80#32 ||| ((v >>> 12) &&& 0x3F#32)).setWidth 8 ∧
      t.byte 2 = 0b10#2 ++ v.extractLsb' 6 6 ∧
      t.byte 2 = (0x80#32 ||| ((v >>> 6) &&& 0x3F#32)).setWidth 8 ∧
      t.byte 3 = 0b10#2 ++ v.extractLsb' 0 6 ∧ t.byte 3 = (0x80#32 ||| (v &&& 0x3F#32)).setWidth 8 ∧
      (∀ i, 4 ≤ i → s.keeps t i) ∧ t.lens = s.lens ++ [4] ∧ s.sameSetting t ∧ t.draws = s.draws) ∧
  (∀ (v : Word) (a : BitVec 3) (b c d : BitVec 6), decode v = .enc4 a b c d →
    65536 ≤ v.toNat ∧ v.toNat ≤ 1114111)

/-- R76, R35, R96, R111: a rejected operation is an ordinary step that returns 0 and leaves everything else as it
was; no write enable is set, and the next operation is not affected by it. -/
def Obligations.EncRejReturnsZeroAndWritesNothing : Prop :=
  (∀ (v : Word) (s : State), 1114111 < v.toNat → s.rejectPolicy = .untouched →
    decode v = .encRej v ∧ lenOf v = 0 ∧ (∀ i, wen v i = false) ∧
    ∃ t, exec (.encRej v) s = .next t ∧ t.lens = s.lens ++ [0] ∧ t.out = s.out ∧ (∀ i, s.keeps t i) ∧
      s.sameSetting t ∧ t.draws = s.draws ∧
      ∀ w : Word, ∃ u u', exec (decode w) t = .next u ∧ exec (decode w) s = .next u' ∧ u.out = u'.out ∧
        u.lens = t.lens ++ [lenOf w] ∧ u'.lens = s.lens ++ [lenOf w]) ∧
  (∀ v x : Word, decode v = .encRej x → 1114111 < v.toNat)

/-- Every form completes, for every field value and every state, whatever the policies: it returns its length, writes
its bytes to the first `len` indices, and leaves `OUT[4]` and above and every setting as they were (R112, and
`92_eei_decisions.md` D21 for the policies). That fields which no operation word decodes to have their form's meaning too
is the model's choice (DESIGN CHOICE, log entry 15), not the spec's. -/
def Obligations.EveryFormCompletesUnderEveryPolicy : Prop :=
  (∀ (a : BitVec 7) (s : State), ∃ t, exec (.enc1 a) s = .next t ∧ t.lens = s.lens ++ [1] ∧
    t.byte 0 = 0b0#1 ++ a ∧ (∀ i, 4 ≤ i → s.keeps t i) ∧ s.sameSetting t) ∧
  (∀ (a : BitVec 5) (b : BitVec 6) (s : State), ∃ t, exec (.enc2 a b) s = .next t ∧ t.lens = s.lens ++ [2] ∧
    t.byte 0 = 0b110#3 ++ a ∧ t.byte 1 = 0b10#2 ++ b ∧
    (∀ i, 4 ≤ i → s.keeps t i) ∧ s.sameSetting t) ∧
  (∀ (a : BitVec 4) (b c : BitVec 6) (s : State), ∃ t, exec (.enc3 a b c) s = .next t ∧ t.lens = s.lens ++ [3] ∧
    t.byte 0 = 0b1110#4 ++ a ∧ t.byte 1 = 0b10#2 ++ b ∧ t.byte 2 = 0b10#2 ++ c ∧
    (∀ i, 4 ≤ i → s.keeps t i) ∧ s.sameSetting t) ∧
  (∀ (a : BitVec 3) (b c d : BitVec 6) (s : State), ∃ t, exec (.enc4 a b c d) s = .next t ∧
    t.lens = s.lens ++ [4] ∧ t.byte 0 = 0b11110#5 ++ a ∧ t.byte 1 = 0b10#2 ++ b ∧
    t.byte 2 = 0b10#2 ++ c ∧ t.byte 3 = 0b10#2 ++ d ∧
    (∀ i, 4 ≤ i → s.keeps t i) ∧ s.sameSetting t) ∧
  (∀ (v : Word) (s : State), ∃ t, exec (.encRej v) s = .next t ∧ t.lens = s.lens ++ [0] ∧
    (∀ i, 4 ≤ i → s.keeps t i) ∧ s.sameSetting t)

/-- R78: `ENCODE` is a total function of the value, and the step is the state with `OUT[i] := bytes[i]` for
`i < len`; under every setting of the policies the pure function is the same, and only `havoc` draws. -/
def Obligations.StepIsThePureFunctionOnTheBuffer : Prop :=
  (∀ v : Word, (bytesOf v).length = (lenOf v : Nat)) ∧
  (∀ (v : Word) (s : State), s.untouching →
    ∃ t, exec (decode v) s = .next t ∧ t.lens = s.lens ++ [lenOf v] ∧
      (∀ i, t.stored i = if i < (lenOf v : Nat) then (bytesOf v)[i]? else s.stored i) ∧
      (∀ i, t.byte i = ((bytesOf v)[i]?).getD (s.byte i)) ∧
      s.sameSetting t ∧ t.draws = s.draws) ∧
  (∀ (v : Word) (s : State),
    ∃ t, exec (decode v) s = .next t ∧ t.lens = s.lens ++ [lenOf v] ∧
      (∀ i, i < (lenOf v : Nat) → (bytesOf v)[i]? = some (t.byte i)) ∧ (∀ i, 4 ≤ i → s.keeps t i))

/-- The ports of R18 say what the step does: `OUT[i]` becomes `wdata[i]` exactly where `wen[i] = 1`, that is for
`i < len`, and keeps its byte elsewhere. -/
def Obligations.PortsSayWhatIsWritten : Prop :=
  ∀ (v : Word) (s : State), s.untouching →
    (∀ i, wen v i = true ↔ i < (lenOf v : Nat)) ∧
    (∀ i, 4 ≤ i → wen v i = false) ∧
    ∃ t, exec (decode v) s = .next t ∧ t.lens = s.lens ++ [lenOf v] ∧
      ∀ i, t.stored i = (if wen v i = true then some (wdata v i) else s.stored i) ∧
        t.byte i = if wen v i = true then wdata v i else s.byte i

/-- The address map (`20_memory.md` section 1): index 0 holds the lead byte of every successful operation, indices 1,
2, 3 hold continuation bytes from lengths 2, 3, 4 on, and indices 4 and above are never accessed, whatever the
policies. -/
def Obligations.AddressMapOfTheBuffer : Prop :=
  ∀ (v : Word) (s : State),
    (wen v 0 = true ↔ 1 ≤ (lenOf v : Nat)) ∧ (wen v 1 = true ↔ 2 ≤ (lenOf v : Nat)) ∧
    (wen v 2 = true ↔ 3 ≤ (lenOf v : Nat)) ∧ (wen v 3 = true ↔ lenOf v = 4) ∧
    ∃ t, exec (decode v) s = .next t ∧
      (wen v 0 = true → isCont (t.byte 0) = false) ∧
      (∀ i, 1 ≤ i → wen v i = true → isCont (t.byte i) = true) ∧
      (∀ i, 4 ≤ i → s.keeps t i)

/-- R34, R97: for every value, the bytes at and beyond `len` are the same after the operation as before it; 0xFF is
never written. -/
def Obligations.BytesBeyondTheLengthAreUntouched : Prop :=
  (∀ (v : Word) (s : State), s.untouching →
    ∃ t, exec (decode v) s = .next t ∧ ∀ i, (lenOf v : Nat) ≤ i → s.keeps t i) ∧
  (∀ v : Word, 0xFF#8 ∉ bytesOf v)

/-- R38: a write stores the byte and does nothing else, and an operation issued twice in succession leaves the
buffer as after the first and returns the same length. -/
def Obligations.OperationsAreIdempotent : Prop :=
  (∀ (s : State) (i : Nat) (b : Byte),
    (s.storeByte i b).byte i = b ∧ (∀ j, j ≠ i → s.keeps (s.storeByte i b) j) ∧
    s.sameSetting (s.storeByte i b) ∧ (s.storeByte i b).draws = s.draws ∧ (s.storeByte i b).lens = s.lens) ∧
  (∀ (v : Word) (s : State), s.untouching → s.inv = true →
    ∃ t u, exec (decode v) s = .next t ∧ exec (decode v) t = .next u ∧ u.out = t.out ∧
      t.lens = s.lens ++ [lenOf v] ∧ u.lens = t.lens ++ [lenOf v])

/-- R99, with R11 and R29: two operations with the same value, on whatever buffers and after whatever history, return
the same length and write the same bytes to the same indices, and write nothing else. -/
def Obligations.OperationsArePure : Prop :=
  ∀ (v : Word) (s s' : State), s.untouching → s'.untouching →
    ∃ t t', exec (decode v) s = .next t ∧ exec (decode v) s' = .next t' ∧
      t.lens = s.lens ++ [lenOf v] ∧ t'.lens = s'.lens ++ [lenOf v] ∧
      ∀ i, (i < (lenOf v : Nat) → t.stored i = t'.stored i ∧ t.stored i ≠ none ∧ t.byte i = t'.byte i) ∧
        ((lenOf v : Nat) ≤ i → s.keeps t i ∧ s'.keeps t' i)

/-- Under every setting of the two policies an operation returns the same length, writes the same bytes below `len`,
and leaves `OUT[4]` and above untouched (`92_eei_decisions.md` D21). -/
def Obligations.PoliciesAgreeOnTheResult : Prop :=
  ∀ (v : Word) (s s' : State),
    s' = { s with trailPolicy := s'.trailPolicy, rejectPolicy := s'.rejectPolicy } →
    ∃ t t', exec (decode v) s = .next t ∧ exec (decode v) s' = .next t' ∧ t.lens = t'.lens ∧
      ∀ i, i < (lenOf v : Nat) ∨ 4 ≤ i → t.byte i = t'.byte i

/-- Under `havoc` each byte the contract leaves open is the environment's next draw, a free byte: trailing bytes after
a success, all four lanes after a rejection (`92_eei_decisions.md` D21; the numbers of the environment and of the draw
are the model's choice, log entry 6). True of every value of the free bytes. -/
def Obligations.HavocDrawsTheOpenBytes : Prop :=
  (∀ (v : Word) (s : State), v.toNat ≤ 1114111 → s.trailPolicy = .havoc →
    ∃ t, exec (decode v) s = .next t ∧ t.draws = s.draws + (4 - (lenOf v : Nat)) ∧
      ∀ i, (lenOf v : Nat) ≤ i → i < 4 → t.byte i = Config.freeByte s.environment (s.draws + (i - (lenOf v : Nat)))) ∧
  (∀ (v : Word) (s : State), 1114111 < v.toNat → s.rejectPolicy = .havoc →
    ∃ t, exec (decode v) s = .next t ∧ t.draws = s.draws + 4 ∧
      ∀ i, i < 4 → t.byte i = Config.freeByte s.environment (s.draws + i))

/-- R110: OutOfRange arises exactly for values above 1,114,111, is signalled as `len = 0` by that same operation, and
no valid value gives that signal; whatever the policies. -/
def Obligations.OutOfRangeIsTheOneError : Prop :=
  ∀ (v : Word) (s : State),
    (outOfRange (lenOf v) = true ↔ 1114111 < v.toNat) ∧ (outOfRange (lenOf v) = true ↔ lenOf v = 0) ∧
    (outOfRange (lenOf v) = true ↔ (decode v).form = .encRej) ∧
    ∃ t, exec (decode v) s = .next t ∧ t.lens = s.lens ++ [lenOf v]

/-- R114: a rejected operation is not fatal and not sticky: the next operation behaves as if it had not happened, and
the same value is rejected again. -/
def Obligations.RejectionLeavesNoTrace : Prop :=
  ∀ (v : Word) (s : State), 1114111 < v.toNat → s.rejectPolicy = .untouched →
    ∃ t, exec (decode v) s = .next t ∧
      (∀ w : Word, ∃ u u', exec (decode w) t = .next u ∧ exec (decode w) s = .next u' ∧
        u = { u' with lens := s.lens ++ [0, lenOf w] }) ∧
      ∃ u, exec (decode v) t = .next u ∧ u.lens = t.lens ++ [0]

/-! ### The properties of `41_properties.md` -/

/-- R91: the length result takes exactly the values 0 to 4, the port never shows 5, 6 or 7, the result is 0 exactly for
values above the limit, and it does not decrease over the valid range. -/
def Obligations.LengthResultValues : Prop :=
  (∀ n : Nat, (∃ v : Word, (lenOf v : Nat) = n) ↔ n ≤ 4) ∧
  (∀ v : Word, (lenPort v).toNat = (lenOf v : Nat) ∧ lenPort v ≠ 5#3 ∧ lenPort v ≠ 6#3 ∧ lenPort v ≠ 7#3) ∧
  (∀ v : Word, (lenOf v = 0 ↔ 1114111 < v.toNat) ∧ (1 ≤ (lenOf v : Nat) ↔ v.toNat ≤ 1114111)) ∧
  (∀ v w : Word, v.toNat ≤ w.toNat → w.toNat ≤ 1114111 → lenOf v ≤ lenOf w)

/-- R93: the length is the least class whose maximum is not exceeded. -/
def Obligations.LengthIsMinimal : Prop :=
  ∀ v : Word, v.toNat ≤ 1114111 →
    (1 ≤ (lenOf v : Nat) ∧ (lenOf v : Nat) ≤ 4 ∧ v.toNat ≤ classMax (lenOf v)) ∧
    (∀ n, 1 ≤ n → n ≤ 4 → v.toNat ≤ classMax n → (lenOf v : Nat) ≤ n) ∧
    (v.toNat < 128 → (lenOf v : Nat) < 2) ∧ (v.toNat < 2048 → (lenOf v : Nat) < 3) ∧
    (v.toNat < 65536 → (lenOf v : Nat) < 4)

/-- R94: the payload bits of the bytes written, concatenated most significant first, are the value. -/
def Obligations.PayloadRoundTrip : Prop :=
  ∀ (v : Word) (s : State), v.toNat ≤ 1114111 →
    payload (bytesOf v) = v.toNat ∧ payloadBits (bytesOf v) = v.toNat ∧
    ∃ t, exec (decode v) s = .next t ∧ t.lens = s.lens ++ [lenOf v] ∧
      ∀ i, i < (lenOf v : Nat) → (bytesOf v)[i]? = some (t.byte i)

/-- R95: the four pairs of neighbouring values fall on opposite sides of their boundaries. -/
def Obligations.BoundariesAreExact : Prop :=
  (lenOf 127#32 = 1 ∧ lenOf 128#32 = 2) ∧ (lenOf 2047#32 = 2 ∧ lenOf 2048#32 = 3) ∧
  (lenOf 65535#32 = 3 ∧ lenOf 65536#32 = 4) ∧ (lenOf 1114111#32 = 4 ∧ lenOf 1114112#32 = 0)

/-- R98: the lead byte has the format of its length and every further byte has the format `CONT`. -/
def Obligations.OutputIsWellFormed : Prop :=
  ∀ v : Word, v.toNat ≤ 1114111 →
    ∃ b bs, bytesOf v = b :: bs ∧
      ((lenOf v = 1 ∧ b &&& 0x80#8 = 0x00#8 ∧ ∃ a, b = lead1 a) ∨
       (lenOf v = 2 ∧ b &&& 0xE0#8 = 0xC0#8 ∧ ∃ a, b = lead2 a) ∨
       (lenOf v = 3 ∧ b &&& 0xF0#8 = 0xE0#8 ∧ ∃ a, b = lead3 a) ∨
       (lenOf v = 4 ∧ b &&& 0xF8#8 = 0xF0#8 ∧ ∃ a, b = lead4 a)) ∧
      ∀ c ∈ bs, c &&& 0xC0#8 = 0x80#8 ∧ ∃ p, c = cont p

/-- R100: (a) different valid values have different results; (b) the length can be read off the lead byte, byte lists
differ, and no encoded form is a proper initial part of another; (c) in a stream of encoded forms a byte starts a form
exactly when it is not of format `CONT`. -/
def Obligations.EncodingIsInjectiveAndSegmentable : Prop :=
  (∀ v w : Word, v.toNat ≤ 1114111 → w.toNat ≤ 1114111 → v ≠ w → (lenOf v, bytesOf v) ≠ (lenOf w, bytesOf w)) ∧
  (∀ (v : Word) (b : Byte), (bytesOf v)[0]? = some b →
    (lenOf v : Nat) = if leadingOnes b = 0 then 1 else leadingOnes b) ∧
  (∀ v w : Word, v.toNat ≤ 1114111 → w.toNat ≤ 1114111 →
    (v ≠ w → bytesOf v ≠ bytesOf w) ∧ (bytesOf v <+: bytesOf w → v = w)) ∧
  (∀ vs : List Word, (∀ v ∈ vs, v.toNat ≤ 1114111) → ∀ (k : Nat) (b : Byte), (stream vs)[k]? = some b →
    (isCont b = false ↔ ∃ j, j < vs.length ∧ k = (stream (vs.take j)).length))

/-- The stream of the encoded forms of valid values determines the values: the "unambiguous re-segmentation" that the
source claims of the scheme (`41_properties.md` section 2). -/
def Obligations.StreamsAreUniquelyDecodable : Prop :=
  ∀ vs ws : List Word, (∀ v ∈ vs, v.toNat ≤ 1114111) → (∀ w ∈ ws, w.toNat ≤ 1114111) →
    stream vs = stream ws → vs = ws

/-- R101: the byte lists of valid values are in the lexicographic order of the values. -/
def Obligations.OrderIsPreserved : Prop :=
  ∀ u v : Word, v.toNat ≤ 1114111 → u.toNat < v.toNat →
    List.Lex (fun b c : Byte => b.toNat < c.toNat) (bytesOf u) (bytesOf v)

/-! ### The machine as a whole -/

/-- When the caller's next request is an operation, the step is `exec` of the decoded value at the state with that
request taken off, and the table word placed by `withFetchWord` is that request; of a word of more than 32 bits nothing is
placed (the model's choice, log entry 14). -/
def Obligations.StepRunsTheDecodedOperation : Prop :=
  (∀ (s : State) (v : Word) (rest : List Request), s.pending = .alone (.operation v) :: rest →
    (decode v).wf = true ∧ step s = exec (decode v) { s with pending := rest }) ∧
  (∀ (s : State) (nbits w : Nat), nbits ≤ 32 → w < 2 ^ nbits →
    (s.withFetchWord nbits w).pending = .alone (.operation (BitVec.ofNat 32 w)) :: s.pending ∧
    step (s.withFetchWord nbits w) = exec (decode (BitVec.ofNat 32 w)) s) ∧
  (∀ (s : State) (nbits w : Nat), 32 < nbits → s.withFetchWord nbits w = s)

/-- Between operations the caller reads and writes its buffer freely and may take a fresh one (R142); with no request
nothing happens (log entry 3); an access beyond the buffer stops (log entry 10); nothing of a fresh buffer is written, and
its bytes are free values of its own (R131; log entry 7). -/
def Obligations.CallerUsesItsBufferBetweenOperations : Prop :=
  (∀ s : State, s.pending = [] → step s = .next s) ∧
  (∀ (s : State) (i : Nat) (rest : List Request), s.pending = .alone (.load i) :: rest →
    step s = if i < s.cap then .next { s with pending := rest } else .fault (.outsideBuffer i)) ∧
  (∀ (s : State) (i : Nat) (b : Byte) (rest : List Request), s.pending = .alone (.store i b) :: rest →
    (s.cap ≤ i → step s = .fault (.outsideBuffer i)) ∧
    (i < s.cap → ∃ t, step s = .next t ∧ t.byte i = b ∧ (∀ j, j ≠ i → s.keeps t j) ∧
      t = { s with out := t.out, pending := rest })) ∧
  (∀ (s : State) (extra : Nat) (rest : List Request), s.pending = .alone (.freshBuffer extra) :: rest →
    ∃ t, step s = .next t ∧ t.cap = 4 + extra ∧
      (∀ i, t.stored i = none ∧ t.byte i = Config.unwrittenByte s.environment t.bufferNo i) ∧
      t.bufferNo = s.bufferNo + 1 ∧
      t = { s with out := t.out, capExtra := t.capExtra, bufferNo := t.bufferNo, pending := rest })

/-- R41: operations in progress at once on distinct buffers do not interact: each encoder's outcome is that of its own
step, whatever the order; two accesses to one buffer that overlap with an operation are refused (the list of encoders,
that the list answers a next state only if every named step does, and the form of the request are the model's choice, log
entries 11 and 12). -/
def Obligations.DistinctBuffersDoNotInteract : Prop :=
  (∀ (ks : List Nat) (sys sys' : List State), ks.Nodup →
    (stepTogether ks sys = .next sys' ↔
      sys'.length = sys.length ∧ (∀ k ∈ ks, k < sys.length) ∧
      ∀ (k : Nat) (s t : State), sys[k]? = some s → sys'[k]? = some t →
        if k ∈ ks then step s = .next t else t = s)) ∧
  (∀ (ks : List Nat) (sys : List State), ¬ ks.Nodup → stepTogether ks sys = .refused .overlappingUse) ∧
  (∀ (s : State) (v : Word) (a : Access) (rest : List Request), s.pending = .overlapping v a :: rest →
    step s = .refused .overlappingUse)

/-- The byte writes of one operation give the same end state in every order (R33, last sentence). -/
def Obligations.ByteWritesCommute : Prop :=
  ∀ (m : Memory) (ws ws' : List (Nat × Byte)), m.wf = true → (ws.map Prod.fst).Nodup → ws.Perm ws' →
    ws.foldl (fun m w => m.write w.1 w.2) m = ws'.foldl (fun m w => m.write w.1 w.2) m

/-- R40, R143: a run of `k` operations ends after exactly `k` steps; its lengths are those of its values in order, and
each byte is the one written by the last operation that wrote its index, or the initial byte if none did. -/
def Obligations.RunOfOperationsAppliesThemInOrder : Prop :=
  ∀ (vs : List Word) (s : State), s.untouching → s.pending = vs.map (fun v => .alone (.operation v)) →
    ∃ t : State, Host.Core.run Sys2Proof.core vs.length s = .next t ∧ t.pending = [] ∧
      t.lens = s.lens ++ vs.map lenOf ∧
      (∀ (i k : Nat) (v : Word), vs[k]? = some v → i < (lenOf v : Nat) →
        (∀ (m : Nat) (w : Word), k < m → vs[m]? = some w → (lenOf w : Nat) ≤ i) → (bytesOf v)[i]? = some (t.byte i)) ∧
      (∀ i : Nat, (∀ v ∈ vs, (lenOf v : Nat) ≤ i) → s.keeps t i)

/-- What a correct caller reads back, `OUT[0 .. len-1]` for the length just returned, is the encoded form of the value
and nothing else, whatever the policies and whatever the buffer held (`70_reset_and_hazards.md` section 2). -/
def Obligations.CorrectCallerReadsTheEncodedForm : Prop :=
  ∀ (v : Word) (s : State), ∃ t, exec (decode v) s = .next t ∧ t.lastResult = bytesOf v

/-- A caller that keeps its obligations is never stopped: no run of its requests ends in a fault or a refusal
(`60_exceptions.md` R112, R113 for the block; the caller's own accesses are log entries 10 and 11). -/
def Obligations.AdmittedCallersAreNeverStopped : Prop :=
  ∀ (s : State), admittedRequests s.cap s.pending = true →
    ∀ k : Nat, ∃ t : State, Host.Core.run Sys2Proof.core k s = .next t

/-- Each step of a caller that keeps its obligations answers a next state, from which it keeps them still
(`60_exceptions.md` R112, R113 for the block; what stops other callers is the model's choice, log entries 10 and 11). -/
def Obligations.AdmittedRequestsStepOn : Prop :=
  ∀ s : State, admittedRequests s.cap s.pending = true →
    ∃ t, step s = .next t ∧ admittedRequests t.cap t.pending = true

/-- Every step keeps the invariant: the buffer's memory stays canonical and lists no index beyond `CAP`. -/
def Obligations.EveryStepKeepsTheBufferInvariant : Prop :=
  ∀ s t : State, s.inv = true → step s = .next t → t.inv = true

/-- The invariant holds at reset. -/
def Obligations.ResetMeetsTheBufferInvariant : Prop := State.reset.inv = true

/-- After reset no byte of the buffer is written, so that each holds an arbitrary byte, and the parameters are at their
defaults (R5, R22, R131, D21); the first operation behaves as any other (R22). The empty request and result lists are the
model's own (log entries 1, 2), and that the arbitrary bytes are the free values of the buffer's numbers is its choice (log
entry 7). -/
def Obligations.ResetStateAndFirstOperation : Prop :=
  (∀ i, State.reset.stored i = none ∧
    State.reset.byte i = Config.unwrittenByte State.reset.environment State.reset.bufferNo i) ∧
  State.reset.cap = 4 ∧ State.reset.untouching ∧ State.reset.pending = [] ∧ State.reset.lens = [] ∧
  (∀ v : Word, ∃ t, step (State.reset.withFetchWord 32 v.toNat) = .next t ∧ t.lens = [lenOf v] ∧
    (∀ i, t.stored i = (bytesOf v)[i]?) ∧ ∀ i, (lenOf v : Nat) ≤ i → State.reset.keeps t i)

/-- No step changes a policy or the environment; the capacity and the buffer change only when the caller takes a fresh
buffer; a result is added for each operation and for nothing else; requests are taken one at a time (`10_state.md`
section 2; `70_reset_and_hazards.md` section 4; the numbers of the environment and of the buffer are the model's own, log
entries 6 and 7). -/
def Obligations.StepsChangeNoSetting : Prop :=
  ∀ s t : State, step s = .next t →
    t.trailPolicy = s.trailPolicy ∧ t.rejectPolicy = s.rejectPolicy ∧ t.environment = s.environment ∧
    t.pending = s.pending.tail ∧
    t.capExtra = (match s.pending.head? with | some (.alone (.freshBuffer extra)) => extra | _ => s.capExtra) ∧
    t.bufferNo = (match s.pending.head? with | some (.alone (.freshBuffer _)) => s.bufferNo + 1 | _ => s.bufferNo) ∧
    t.lens = (match s.pending.head? with | some (.alone (.operation v)) => s.lens ++ [lenOf v] | _ => s.lens)
end

