-- ==== Sys2Proof/Laws/Concurrent.lean ====
section
/-! SUPPORT. One step of one encoder among several. -/

namespace Sys2Proof.Machine

/-- It answers a system in which that encoder has taken its own step and every other is as it was. -/
theorem stepAt_next (k : Nat) (sys sys' : List State) :
    stepAt k sys = .next sys' ↔ ∃ s t, sys[k]? = some s ∧ step s = .next t ∧ sys' = sys.set k t := by
  unfold stepAt
  cases sys[k]? with
  | none => simp
  | some s =>
    simp only
    cases e : step s with
    | next t => simp [e, eq_comm]
    | fault r => simp [e]
    | refused r => simp [e]

theorem stepEach_cons (k : Nat) (ks : List Nat) (sys sys' : List State) :
    stepEach (k :: ks) sys = .next sys' ↔ ∃ mid, stepAt k sys = .next mid ∧ stepEach ks mid = .next sys' := by
  rw [stepEach]
  cases stepAt k sys <;> simp

end Sys2Proof.Machine
end

