-- ==== Sys2Proof/Laws/Decode.lean ====
section
/-! SUPPORT. Selection and the decoder: which range each form has, and that a decoded instruction has the form of
its value. -/

namespace Sys2Proof

/-- The class maxima as numbers (R5). -/
theorem Config.max_values :
    Config.max1 = 0x7F ∧ Config.max2 = 0x7FF ∧ Config.max3 = 0xFFFF ∧ Config.max4 = 0x10FFFF := ⟨rfl, rfl, rfl, rfl⟩

theorem Form.of_enc1 {v : Word} (h : v.toNat ≤ 0x7F) : Form.of v = .enc1 := by
  obtain ⟨m1, _⟩ := Config.max_values
  rw [Form.of, if_pos (by omega)]

theorem Form.of_enc2 {v : Word} (h : 0x80 ≤ v.toNat) (h' : v.toNat ≤ 0x7FF) : Form.of v = .enc2 := by
  obtain ⟨m1, m2, _⟩ := Config.max_values
  rw [Form.of, if_neg (by omega), if_pos (by omega)]

theorem Form.of_enc3 {v : Word} (h : 0x800 ≤ v.toNat) (h' : v.toNat ≤ 0xFFFF) : Form.of v = .enc3 := by
  obtain ⟨m1, m2, m3, _⟩ := Config.max_values
  rw [Form.of, if_neg (by omega), if_neg (by omega), if_pos (by omega)]

theorem Form.of_enc4 {v : Word} (h : 0x10000 ≤ v.toNat) (h' : v.toNat ≤ 0x10FFFF) : Form.of v = .enc4 := by
  obtain ⟨m1, m2, m3, m4⟩ := Config.max_values
  rw [Form.of, if_neg (by omega), if_neg (by omega), if_neg (by omega), if_pos (by omega)]

theorem Form.of_encRej {v : Word} (h : 0x110000 ≤ v.toNat) : Form.of v = .encRej := by
  obtain ⟨m1, m2, m3, m4⟩ := Config.max_values
  rw [Form.of, if_neg (by omega), if_neg (by omega), if_neg (by omega), if_neg (by omega)]

/-- The one case analysis over a value: its range, its form, its instruction. -/
theorem decode_cases (v : Word) :
    (v.toNat ≤ 0x7F ∧ Form.of v = .enc1 ∧ decode v = .enc1 (v.extractLsb' 0 7)) ∨
    (0x80 ≤ v.toNat ∧ v.toNat ≤ 0x7FF ∧ Form.of v = .enc2 ∧
      decode v = .enc2 (v.extractLsb' 6 5) (v.extractLsb' 0 6)) ∨
    (0x800 ≤ v.toNat ∧ v.toNat ≤ 0xFFFF ∧ Form.of v = .enc3 ∧
      decode v = .enc3 (v.extractLsb' 12 4) (v.extractLsb' 6 6) (v.extractLsb' 0 6)) ∨
    (0x10000 ≤ v.toNat ∧ v.toNat ≤ 0x10FFFF ∧ Form.of v = .enc4 ∧
      decode v = .enc4 (v.extractLsb' 18 3) (v.extractLsb' 12 6) (v.extractLsb' 6 6) (v.extractLsb' 0 6)) ∨
    (0x110000 ≤ v.toNat ∧ Form.of v = .encRej ∧ decode v = .encRej v) := by
  by_cases h1 : v.toNat ≤ 0x7F
  · exact .inl ⟨h1, Form.of_enc1 h1, by rw [decode, Form.of_enc1 h1]⟩
  by_cases h2 : v.toNat ≤ 0x7FF
  · have f := Form.of_enc2 (v := v) (by omega) h2
    exact .inr (.inl ⟨by omega, h2, f, by rw [decode, f]⟩)
  by_cases h3 : v.toNat ≤ 0xFFFF
  · have f := Form.of_enc3 (v := v) (by omega) h3
    exact .inr (.inr (.inl ⟨by omega, h3, f, by rw [decode, f]⟩))
  by_cases h4 : v.toNat ≤ 0x10FFFF
  · have f := Form.of_enc4 (v := v) (by omega) h4
    exact .inr (.inr (.inr (.inl ⟨by omega, h4, f, by rw [decode, f]⟩)))
  · have f := Form.of_encRej (v := v) (by omega)
    exact .inr (.inr (.inr (.inr ⟨by omega, f, by rw [decode, f]⟩)))

theorem decode_form (v : Word) : (decode v).form = Form.of v := by
  rcases decode_cases v with ⟨_, f, d⟩ | ⟨_, _, f, d⟩ | ⟨_, _, f, d⟩ | ⟨_, _, f, d⟩ | ⟨_, f, d⟩ <;> rw [d, f] <;> rfl

/-- A field of a value, as a number. -/
theorem field_toNat (v : Word) (lo w : Nat) : (v.extractLsb' lo w).toNat = v.toNat / 2 ^ lo % 2 ^ w := by
  simp [BitVec.extractLsb'_toNat, Nat.shiftRight_eq_div_pow]

/-- A concatenation, as a number. -/
theorem append_toNat {m n : Nat} (a : BitVec m) (b : BitVec n) : (a ++ b).toNat = a.toNat * 2 ^ n + b.toNat := by
  rw [BitVec.toNat_append, Nat.shiftLeft_eq, Nat.mul_comm, ← Nat.two_pow_add_eq_or_of_lt b.isLt]

namespace Machine

theorem lenOf_eq (v : Word) : lenOf v = lenOfForm (decode v).form := by rw [lenOf, decode_form]

@[simp] theorem lead1_toNat (a : BitVec 7) : (lead1 a).toNat = a.toNat := (append_toNat 0b0#1 a).trans (by simp)
@[simp] theorem lead2_toNat (a : BitVec 5) : (lead2 a).toNat = 0xC0 + a.toNat := (append_toNat 0b110#3 a).trans (by simp)
@[simp] theorem lead3_toNat (a : BitVec 4) : (lead3 a).toNat = 0xE0 + a.toNat := (append_toNat 0b1110#4 a).trans (by simp)
@[simp] theorem lead4_toNat (a : BitVec 3) : (lead4 a).toNat = 0xF0 + a.toNat := (append_toNat 0b11110#5 a).trans (by simp)
@[simp] theorem cont_toNat (p : BitVec 6) : (cont p).toNat = 0x80 + p.toNat := (append_toNat 0b10#2 p).trans (by simp)

/-- The one case analysis over a value for the pure function of R78: its range, its length and its bytes. -/
theorem bytesOf_cases (v : Word) :
    (v.toNat ≤ 0x7F ∧ lenOf v = 1 ∧ bytesOf v = [lead1 (v.extractLsb' 0 7)]) ∨
    (0x80 ≤ v.toNat ∧ v.toNat ≤ 0x7FF ∧ lenOf v = 2 ∧
      bytesOf v = [lead2 (v.extractLsb' 6 5), cont (v.extractLsb' 0 6)]) ∨
    (0x800 ≤ v.toNat ∧ v.toNat ≤ 0xFFFF ∧ lenOf v = 3 ∧
      bytesOf v = [lead3 (v.extractLsb' 12 4), cont (v.extractLsb' 6 6), cont (v.extractLsb' 0 6)]) ∨
    (0x10000 ≤ v.toNat ∧ v.toNat ≤ 0x10FFFF ∧ lenOf v = 4 ∧
      bytesOf v = [lead4 (v.extractLsb' 18 3), cont (v.extractLsb' 12 6), cont (v.extractLsb' 6 6),
        cont (v.extractLsb' 0 6)]) ∨
    (0x110000 ≤ v.toNat ∧ lenOf v = 0 ∧ bytesOf v = []) := by
  rcases decode_cases v with ⟨h, f, d⟩ | ⟨h, h', f, d⟩ | ⟨h, h', f, d⟩ | ⟨h, h', f, d⟩ | ⟨h, f, d⟩
  · exact .inl ⟨h, by rw [lenOf, f]; rfl, by rw [bytesOf, d]; rfl⟩
  · exact .inr (.inl ⟨h, h', by rw [lenOf, f]; rfl, by rw [bytesOf, d]; rfl⟩)
  · exact .inr (.inr (.inl ⟨h, h', by rw [lenOf, f]; rfl, by rw [bytesOf, d]; rfl⟩))
  · exact .inr (.inr (.inr (.inl ⟨h, h', by rw [lenOf, f]; rfl, by rw [bytesOf, d]; rfl⟩)))
  · exact .inr (.inr (.inr (.inr ⟨h, by rw [lenOf, f]; rfl, by rw [bytesOf, d]; rfl⟩)))

/-- As many bytes are written as the length says (R32, R78). -/
theorem bytesOf_length (v : Word) : (bytesOf v).length = (lenOf v : Nat) := by
  rcases bytesOf_cases v with ⟨_, l, b⟩ | ⟨_, _, l, b⟩ | ⟨_, _, l, b⟩ | ⟨_, _, l, b⟩ | ⟨_, l, b⟩ <;> rw [l, b] <;> rfl

end Machine

end Sys2Proof
end

