-- ==== Sys2Proof/Laws/State.lean ====
section
/-! SUPPORT. One lemma per field and update of State, so that no proof unfolds a record update. -/

namespace Sys2Proof.Machine

section StoreByte
variable (s : State) (i : Nat) (b : Byte)
@[simp] theorem State.storeByte_out : (s.storeByte i b).out = s.out.write i b := rfl
@[simp] theorem State.storeByte_capExtra : (s.storeByte i b).capExtra = s.capExtra := rfl
@[simp] theorem State.storeByte_trailPolicy : (s.storeByte i b).trailPolicy = s.trailPolicy := rfl
@[simp] theorem State.storeByte_rejectPolicy : (s.storeByte i b).rejectPolicy = s.rejectPolicy := rfl
@[simp] theorem State.storeByte_environment : (s.storeByte i b).environment = s.environment := rfl
@[simp] theorem State.storeByte_bufferNo : (s.storeByte i b).bufferNo = s.bufferNo := rfl
@[simp] theorem State.storeByte_draws : (s.storeByte i b).draws = s.draws := rfl
@[simp] theorem State.storeByte_pending : (s.storeByte i b).pending = s.pending := rfl
@[simp] theorem State.storeByte_lens : (s.storeByte i b).lens = s.lens := rfl
end StoreByte

section DrawByte
variable (s : State) (i : Nat)
@[simp] theorem State.drawByte_out : (s.drawByte i).out = s.out.write i (Config.freeByte s.environment s.draws) := rfl
@[simp] theorem State.drawByte_capExtra : (s.drawByte i).capExtra = s.capExtra := rfl
@[simp] theorem State.drawByte_trailPolicy : (s.drawByte i).trailPolicy = s.trailPolicy := rfl
@[simp] theorem State.drawByte_rejectPolicy : (s.drawByte i).rejectPolicy = s.rejectPolicy := rfl
@[simp] theorem State.drawByte_environment : (s.drawByte i).environment = s.environment := rfl
@[simp] theorem State.drawByte_bufferNo : (s.drawByte i).bufferNo = s.bufferNo := rfl
@[simp] theorem State.drawByte_draws : (s.drawByte i).draws = s.draws + 1 := rfl
@[simp] theorem State.drawByte_pending : (s.drawByte i).pending = s.pending := rfl
@[simp] theorem State.drawByte_lens : (s.drawByte i).lens = s.lens := rfl
end DrawByte

section Deliver
variable (s : State) (n : Len)
@[simp] theorem State.deliver_out : (s.deliver n).out = s.out := rfl
@[simp] theorem State.deliver_capExtra : (s.deliver n).capExtra = s.capExtra := rfl
@[simp] theorem State.deliver_trailPolicy : (s.deliver n).trailPolicy = s.trailPolicy := rfl
@[simp] theorem State.deliver_rejectPolicy : (s.deliver n).rejectPolicy = s.rejectPolicy := rfl
@[simp] theorem State.deliver_environment : (s.deliver n).environment = s.environment := rfl
@[simp] theorem State.deliver_bufferNo : (s.deliver n).bufferNo = s.bufferNo := rfl
@[simp] theorem State.deliver_draws : (s.deliver n).draws = s.draws := rfl
@[simp] theorem State.deliver_pending : (s.deliver n).pending = s.pending := rfl
@[simp] theorem State.deliver_lens : (s.deliver n).lens = s.lens ++ [n] := rfl
end Deliver

section Taken
variable (s : State)
@[simp] theorem State.taken_out : s.taken.out = s.out := rfl
@[simp] theorem State.taken_capExtra : s.taken.capExtra = s.capExtra := rfl
@[simp] theorem State.taken_trailPolicy : s.taken.trailPolicy = s.trailPolicy := rfl
@[simp] theorem State.taken_rejectPolicy : s.taken.rejectPolicy = s.rejectPolicy := rfl
@[simp] theorem State.taken_environment : s.taken.environment = s.environment := rfl
@[simp] theorem State.taken_bufferNo : s.taken.bufferNo = s.bufferNo := rfl
@[simp] theorem State.taken_draws : s.taken.draws = s.draws := rfl
@[simp] theorem State.taken_pending : s.taken.pending = s.pending.tail := rfl
@[simp] theorem State.taken_lens : s.taken.lens = s.lens := rfl
@[simp] theorem State.taken_cap : s.taken.cap = s.cap := rfl
@[simp] theorem State.taken_stored (i : Nat) : s.taken.stored i = s.stored i := rfl
@[simp] theorem State.taken_byte (i : Nat) : s.taken.byte i = s.byte i := rfl
end Taken

section IssueFirst
variable (s : State) (v : Word)
@[simp] theorem State.issueFirst_out : (s.issueFirst v).out = s.out := rfl
@[simp] theorem State.issueFirst_capExtra : (s.issueFirst v).capExtra = s.capExtra := rfl
@[simp] theorem State.issueFirst_trailPolicy : (s.issueFirst v).trailPolicy = s.trailPolicy := rfl
@[simp] theorem State.issueFirst_rejectPolicy : (s.issueFirst v).rejectPolicy = s.rejectPolicy := rfl
@[simp] theorem State.issueFirst_environment : (s.issueFirst v).environment = s.environment := rfl
@[simp] theorem State.issueFirst_bufferNo : (s.issueFirst v).bufferNo = s.bufferNo := rfl
@[simp] theorem State.issueFirst_draws : (s.issueFirst v).draws = s.draws := rfl
@[simp] theorem State.issueFirst_pending :
    (s.issueFirst v).pending = .alone (.operation v) :: s.pending := rfl
@[simp] theorem State.issueFirst_lens : (s.issueFirst v).lens = s.lens := rfl
@[simp] theorem State.issueFirst_taken : (s.issueFirst v).taken = s := rfl
end IssueFirst

/-- A table word that fits the operand word is issued as the number it is. -/
theorem State.issueTableWord_of_le (s : State) {nbits : Nat} (w : Nat) (h : nbits ≤ 32) :
    s.issueTableWord nbits w = s.issueFirst (operandWord nbits w) := if_pos h

/-- A table word wider than the operand word leaves the state as it was. -/
theorem State.issueTableWord_of_wide (s : State) {nbits : Nat} (w : Nat) (h : 32 < nbits) :
    s.issueTableWord nbits w = s := if_neg (Nat.not_le.2 h)

end Sys2Proof.Machine
end

