-- ==== Sys2Proof/Laws/Memory.lean ====
section
/-! SUPPORT. The laws of the buffer's memory: a read after a write, and that a write keeps the canonical form and
the bound on the indices. -/

namespace Sys2Proof.Machine

theorem Memory.read_write (m : Memory) (i j : Nat) (b : Byte) :
    (Memory.write m i b).read j = if j = i then some b else m.read j := by
  induction m with
  | nil => simp [Memory.write, Memory.read]
  | cons c m ih =>
    obtain ⟨k, x⟩ := c
    simp only [Memory.write]
    split
    · simp [Memory.read]
    · split
      · subst_vars; simp only [Memory.read]; split <;> rfl
      · simp only [Memory.read, ih]; split <;> split <;> simp_all

@[simp] theorem Memory.read_write_same (m : Memory) (i : Nat) (b : Byte) : (Memory.write m i b).read i = some b := by
  simp [Memory.read_write]

theorem Memory.read_write_other (m : Memory) {i j : Nat} (b : Byte) (h : j ≠ i) :
    (Memory.write m i b).read j = m.read j := by
  simp [Memory.read_write, h]

theorem Memory.risingFrom_le {m : Memory} {l k : Nat} (h : m.risingFrom l = true) (hk : k ≤ l) :
    m.risingFrom k = true := by
  cases m with
  | nil => rfl
  | cons c m => simp_all [Memory.risingFrom]; omega

theorem Memory.risingFrom_write {m : Memory} {l i : Nat} (b : Byte) (h : m.risingFrom l = true) (hi : l ≤ i) :
    (Memory.write m i b).risingFrom l = true := by
  induction m generalizing l with
  | nil => simp [Memory.write, Memory.risingFrom, hi]
  | cons c m ih =>
    obtain ⟨k, x⟩ := c
    simp only [Memory.risingFrom, Bool.and_eq_true, decide_eq_true_eq] at h
    simp only [Memory.write]
    split
    · simp [Memory.risingFrom, hi, h.2]; omega
    · split
      · subst_vars; simp [Memory.risingFrom, h]
      · simp only [Memory.risingFrom, Bool.and_eq_true, decide_eq_true_eq]
        exact ⟨h.1, ih h.2 (by omega)⟩

/-- Every write keeps the canonical form. -/
theorem Memory.wf_write {m : Memory} (i : Nat) (b : Byte) (h : m.wf = true) : (Memory.write m i b).wf = true :=
  Memory.risingFrom_write b h (Nat.zero_le i)

/-- The memory at reset is in canonical form. -/
theorem reset_memory_wf : State.reset.out.wf = true := rfl

theorem Memory.below_write {m : Memory} {cap i : Nat} (b : Byte) (h : m.below cap = true) (hi : i < cap) :
    (Memory.write m i b).below cap = true := by
  induction m with
  | nil => simp [Memory.write, Memory.below, hi]
  | cons c m ih =>
    obtain ⟨k, x⟩ := c
    have hm : k < cap ∧ Memory.below cap m = true := by simpa [Memory.below] using h
    simp only [Memory.write]
    split
    · simpa [Memory.below, hi] using h
    · split
      · simpa [Memory.below, hi] using hm.2
      · exact (Bool.and_eq_true _ _).mpr ⟨decide_eq_true hm.1, ih hm.2⟩

theorem Memory.read_eq_none_of_risingFrom {m : Memory} {l i : Nat} (h : m.risingFrom l = true) (hi : i < l) :
    m.read i = none := by
  induction m generalizing l with
  | nil => rfl
  | cons c m ih =>
    obtain ⟨k, x⟩ := c
    simp only [Memory.risingFrom, Bool.and_eq_true, decide_eq_true_eq] at h
    simp only [Memory.read]
    rw [if_neg (by omega)]
    exact ih h.2 (by omega)

theorem Memory.ext_of_risingFrom {m n : Memory} {l : Nat} (hm : m.risingFrom l = true) (hn : n.risingFrom l = true)
    (h : ∀ i, m.read i = n.read i) : m = n := by
  induction m generalizing n l with
  | nil =>
    cases n with
    | nil => rfl
    | cons d n => have := h d.1; simp [Memory.read] at this
  | cons c m ih =>
    obtain ⟨k, x⟩ := c
    cases n with
    | nil => have := h k; simp [Memory.read] at this
    | cons d n =>
      obtain ⟨j, y⟩ := d
      simp only [Memory.risingFrom, Bool.and_eq_true, decide_eq_true_eq] at hm hn
      have hkj : k = j := by
        rcases Nat.lt_trichotomy k j with hlt | heq | hgt
        · have := h k
          simp only [Memory.read, if_true, if_neg (Nat.ne_of_lt hlt)] at this
          rw [Memory.read_eq_none_of_risingFrom hn.2 (by omega)] at this
          cases this
        · exact heq
        · have := h j
          simp only [Memory.read, if_true, if_neg (Nat.ne_of_lt hgt)] at this
          rw [Memory.read_eq_none_of_risingFrom hm.2 (by omega)] at this
          cases this
      subst hkj
      have hxy : x = y := by simpa [Memory.read] using h k
      subst hxy
      have : m = n := by
        refine ih hm.2 hn.2 fun i => ?_
        by_cases hi : i = k
        · subst hi
          rw [Memory.read_eq_none_of_risingFrom hm.2 (by omega), Memory.read_eq_none_of_risingFrom hn.2 (by omega)]
        · simpa [Memory.read, hi] using h i
      rw [this]

/-- Two memories in canonical form that read the same at every index are the same data. -/
theorem Memory.ext_of_wf {m n : Memory} (hm : m.wf = true) (hn : n.wf = true) (h : ∀ i, m.read i = n.read i) : m = n :=
  Memory.ext_of_risingFrom hm hn h

end Sys2Proof.Machine
end

