-- ==== Sys2Proof/Laws/Ops.lean ====
section
/-! SUPPORT. For each shared operation, what it can do, said once: its effect on every byte of the buffer, on every
other field, and on the invariant. -/

namespace Sys2Proof.Machine

@[simp] theorem State.storeByte_stored (s : State) (i j : Nat) (b : Byte) :
    (s.storeByte i b).stored j = if j = i then some b else s.stored j := Memory.read_write s.out i j b

@[simp] theorem State.drawByte_stored (s : State) (i j : Nat) :
    (s.drawByte i).stored j = if j = i then some (Config.freeByte s.environment s.draws) else s.stored j :=
  Memory.read_write s.out i j _

@[simp] theorem State.deliver_stored (s : State) (n : Len) (j : Nat) : (s.deliver n).stored j = s.stored j := rfl

/-- A written index holds the byte that was written. -/
theorem State.byte_of_stored {s : State} {i : Nat} {b : Byte} (h : s.stored i = some b) : s.byte i = b := by
  rw [State.byte, h]; rfl

/-- An index that nothing has written holds the free value of its buffer. -/
theorem State.byte_of_not_stored {s : State} {i : Nat} (h : s.stored i = none) :
    s.byte i = Config.unwrittenByte s.environment s.bufferNo i := by
  rw [State.byte, h]; rfl

/-- In the same buffer of the same environment, an index with no write to it holds the byte it held. -/
theorem State.keeps_of_stored {s t : State} {i : Nat} (he : t.environment = s.environment)
    (hb : t.bufferNo = s.bufferNo) (h : t.stored i = s.stored i) : s.keeps t i :=
  ⟨h, by rw [State.byte, State.byte, h, he, hb]⟩

theorem State.keeps_refl (s : State) (i : Nat) : s.keeps s i := ⟨rfl, rfl⟩

theorem State.keeps_trans {s t u : State} {i : Nat} (h : s.keeps t i) (h' : t.keeps u i) : s.keeps u i :=
  ⟨h'.1.trans h.1, h'.2.trans h.2⟩

@[simp] theorem State.storeByte_byte (s : State) (i j : Nat) (b : Byte) :
    (s.storeByte i b).byte j = if j = i then b else s.byte j := by
  simp only [State.byte, State.storeByte_stored, State.storeByte_environment, State.storeByte_bufferNo]
  split <;> rfl

@[simp] theorem State.drawByte_byte (s : State) (i j : Nat) :
    (s.drawByte i).byte j = if j = i then Config.freeByte s.environment s.draws else s.byte j :=
  State.storeByte_byte s i j _

@[simp] theorem State.deliver_byte (s : State) (n : Len) (j : Nat) : (s.deliver n).byte j = s.byte j := rfl

@[simp] theorem State.storeFrom_capExtra (s : State) (i : Nat) (bs : List Byte) : (s.storeFrom i bs).capExtra = s.capExtra := by
  induction bs generalizing s i with
  | nil => rfl
  | cons b bs ih => exact ih _ _

@[simp] theorem State.storeFrom_trailPolicy (s : State) (i : Nat) (bs : List Byte) : (s.storeFrom i bs).trailPolicy = s.trailPolicy := by
  induction bs generalizing s i with
  | nil => rfl
  | cons b bs ih => exact ih _ _

@[simp] theorem State.storeFrom_rejectPolicy (s : State) (i : Nat) (bs : List Byte) : (s.storeFrom i bs).rejectPolicy = s.rejectPolicy := by
  induction bs generalizing s i with
  | nil => rfl
  | cons b bs ih => exact ih _ _

@[simp] theorem State.storeFrom_environment (s : State) (i : Nat) (bs : List Byte) : (s.storeFrom i bs).environment = s.environment := by
  induction bs generalizing s i with
  | nil => rfl
  | cons b bs ih => exact ih _ _

@[simp] theorem State.storeFrom_bufferNo (s : State) (i : Nat) (bs : List Byte) : (s.storeFrom i bs).bufferNo = s.bufferNo := by
  induction bs generalizing s i with
  | nil => rfl
  | cons b bs ih => exact ih _ _

@[simp] theorem State.storeFrom_draws (s : State) (i : Nat) (bs : List Byte) : (s.storeFrom i bs).draws = s.draws := by
  induction bs generalizing s i with
  | nil => rfl
  | cons b bs ih => exact ih _ _

@[simp] theorem State.storeFrom_pending (s : State) (i : Nat) (bs : List Byte) : (s.storeFrom i bs).pending = s.pending := by
  induction bs generalizing s i with
  | nil => rfl
  | cons b bs ih => exact ih _ _

@[simp] theorem State.storeFrom_lens (s : State) (i : Nat) (bs : List Byte) : (s.storeFrom i bs).lens = s.lens := by
  induction bs generalizing s i with
  | nil => rfl
  | cons b bs ih => exact ih _ _

theorem State.storeFrom_stored (s : State) (i j : Nat) (bs : List Byte) :
    (s.storeFrom i bs).stored j = if i ≤ j ∧ j < i + bs.length then bs[j - i]? else s.stored j := by
  induction bs generalizing s i with
  | nil => simp only [State.storeFrom, List.length_nil]; rw [if_neg (by omega)]
  | cons b bs ih =>
    simp only [State.storeFrom, ih, State.storeByte_stored, List.length_cons]
    rcases Nat.lt_trichotomy j i with h | h | h
    · rw [if_neg (by omega), if_neg (by omega), if_neg (by omega)]
    · subst h; simp
    · obtain ⟨d, rfl⟩ : ∃ d, j = i + 1 + d := ⟨j - (i + 1), by omega⟩
      have e : i + 1 + d - i = d + 1 := by omega
      by_cases hd : d < bs.length
      · rw [if_pos (by omega), if_pos (by omega), e]; simp
      · rw [if_neg (by omega), if_neg (by omega), if_neg (by omega)]

@[simp] theorem State.drawFrom_capExtra (s : State) (i n : Nat) : (s.drawFrom i n).capExtra = s.capExtra := by
  induction n generalizing s i with
  | zero => rfl
  | succ n ih => exact ih _ _

@[simp] theorem State.drawFrom_trailPolicy (s : State) (i n : Nat) : (s.drawFrom i n).trailPolicy = s.trailPolicy := by
  induction n generalizing s i with
  | zero => rfl
  | succ n ih => exact ih _ _

@[simp] theorem State.drawFrom_rejectPolicy (s : State) (i n : Nat) : (s.drawFrom i n).rejectPolicy = s.rejectPolicy := by
  induction n generalizing s i with
  | zero => rfl
  | succ n ih => exact ih _ _

@[simp] theorem State.drawFrom_environment (s : State) (i n : Nat) : (s.drawFrom i n).environment = s.environment := by
  induction n generalizing s i with
  | zero => rfl
  | succ n ih => exact ih _ _

@[simp] theorem State.drawFrom_bufferNo (s : State) (i n : Nat) : (s.drawFrom i n).bufferNo = s.bufferNo := by
  induction n generalizing s i with
  | zero => rfl
  | succ n ih => exact ih _ _

@[simp] theorem State.drawFrom_pending (s : State) (i n : Nat) : (s.drawFrom i n).pending = s.pending := by
  induction n generalizing s i with
  | zero => rfl
  | succ n ih => exact ih _ _

@[simp] theorem State.drawFrom_lens (s : State) (i n : Nat) : (s.drawFrom i n).lens = s.lens := by
  induction n generalizing s i with
  | zero => rfl
  | succ n ih => exact ih _ _

@[simp] theorem State.drawFrom_draws (s : State) (i n : Nat) : (s.drawFrom i n).draws = s.draws + n := by
  induction n generalizing s i with
  | zero => rfl
  | succ n ih => rw [State.drawFrom, ih, State.drawByte_draws]; omega

theorem State.drawFrom_stored (s : State) (i n j : Nat) :
    (s.drawFrom i n).stored j = if i ≤ j ∧ j < i + n then some (Config.freeByte s.environment (s.draws + (j - i))) else s.stored j := by
  induction n generalizing s i with
  | zero => simp only [State.drawFrom]; rw [if_neg (by omega)]
  | succ n ih =>
    simp only [State.drawFrom, ih, State.drawByte_stored, State.drawByte_draws, State.drawByte_environment]
    rcases Nat.lt_trichotomy j i with h | h | h
    · rw [if_neg (by omega), if_neg (by omega), if_neg (by omega)]
    · subst h; simp
    · by_cases hn : j < i + (n + 1)
      · rw [if_pos (by omega), if_pos (by omega), show s.draws + 1 + (j - (i + 1)) = s.draws + (j - i) by omega]
      · rw [if_neg (by omega), if_neg (by omega), if_neg (by omega)]

/-- Under `untouched` the lanes are left as they are; under `havoc` each lane from `first` to 3 holds the next free
byte. -/
theorem State.settleLanes_stored (s : State) (p : Config.Policy) (first j : Nat) :
    (s.settleLanes p first).stored j =
      if p = .havoc ∧ first ≤ j ∧ j < 4 then some (Config.freeByte s.environment (s.draws + (j - first))) else s.stored j := by
  cases p with
  | untouched => simp [State.settleLanes]
  | havoc =>
    simp only [State.settleLanes, State.drawFrom_stored, Config.lanes, true_and]
    by_cases h : first ≤ j ∧ j < 4
    · rw [if_pos (by omega), if_pos h]
    · rw [if_neg (by omega), if_neg h]

@[simp] theorem State.settleLanes_capExtra (s : State) (p : Config.Policy) (first : Nat) : (s.settleLanes p first).capExtra = s.capExtra := by
  cases p <;> simp [State.settleLanes]

@[simp] theorem State.settleLanes_trailPolicy (s : State) (p : Config.Policy) (first : Nat) : (s.settleLanes p first).trailPolicy = s.trailPolicy := by
  cases p <;> simp [State.settleLanes]

@[simp] theorem State.settleLanes_rejectPolicy (s : State) (p : Config.Policy) (first : Nat) : (s.settleLanes p first).rejectPolicy = s.rejectPolicy := by
  cases p <;> simp [State.settleLanes]

@[simp] theorem State.settleLanes_environment (s : State) (p : Config.Policy) (first : Nat) : (s.settleLanes p first).environment = s.environment := by
  cases p <;> simp [State.settleLanes]

@[simp] theorem State.settleLanes_bufferNo (s : State) (p : Config.Policy) (first : Nat) : (s.settleLanes p first).bufferNo = s.bufferNo := by
  cases p <;> simp [State.settleLanes]

@[simp] theorem State.settleLanes_pending (s : State) (p : Config.Policy) (first : Nat) : (s.settleLanes p first).pending = s.pending := by
  cases p <;> simp [State.settleLanes]

@[simp] theorem State.settleLanes_lens (s : State) (p : Config.Policy) (first : Nat) : (s.settleLanes p first).lens = s.lens := by
  cases p <;> simp [State.settleLanes]

@[simp] theorem State.settleLanes_draws (s : State) (p : Config.Policy) (first : Nat) :
    (s.settleLanes p first).draws = s.draws + if p = .havoc then 4 - first else 0 := by
  cases p <;> simp [State.settleLanes, Config.lanes]

/-- Every byte after a successful operation. -/
theorem State.complete_stored (s : State) (n : Len) (bs : List Byte) (j : Nat) :
    (s.complete n bs).stored j =
      if s.trailPolicy = .havoc ∧ n ≤ j ∧ j < 4 then some (Config.freeByte s.environment (s.draws + (j - n)))
      else if j < bs.length then bs[j]? else s.stored j := by
  simp [State.complete, State.settleLanes_stored, State.storeFrom_stored]

@[simp] theorem State.complete_capExtra (s : State) (n : Len) (bs : List Byte) : (s.complete n bs).capExtra = s.capExtra := by
  simp [State.complete]
@[simp] theorem State.complete_trailPolicy (s : State) (n : Len) (bs : List Byte) : (s.complete n bs).trailPolicy = s.trailPolicy := by
  simp [State.complete]
@[simp] theorem State.complete_rejectPolicy (s : State) (n : Len) (bs : List Byte) : (s.complete n bs).rejectPolicy = s.rejectPolicy := by
  simp [State.complete]
@[simp] theorem State.complete_environment (s : State) (n : Len) (bs : List Byte) : (s.complete n bs).environment = s.environment := by
  simp [State.complete]
@[simp] theorem State.complete_bufferNo (s : State) (n : Len) (bs : List Byte) : (s.complete n bs).bufferNo = s.bufferNo := by
  simp [State.complete]
@[simp] theorem State.complete_pending (s : State) (n : Len) (bs : List Byte) : (s.complete n bs).pending = s.pending := by
  simp [State.complete]
@[simp] theorem State.complete_lens (s : State) (n : Len) (bs : List Byte) :
    (s.complete n bs).lens = s.lens ++ [n] := by
  simp [State.complete]
theorem State.complete_draws (s : State) (n : Len) (bs : List Byte) :
    (s.complete n bs).draws = s.draws + if s.trailPolicy = .havoc then 4 - (n : Nat) else 0 := by
  simp [State.complete]

/-- Every byte after a rejected operation. -/
theorem State.reject_stored (s : State) (j : Nat) :
    s.reject.stored j =
      if s.rejectPolicy = .havoc ∧ j < 4 then some (Config.freeByte s.environment (s.draws + j)) else s.stored j := by
  simp [State.reject, State.settleLanes_stored]

@[simp] theorem State.reject_capExtra (s : State) : (s.reject).capExtra = s.capExtra := by
  simp [State.reject]
@[simp] theorem State.reject_trailPolicy (s : State) : (s.reject).trailPolicy = s.trailPolicy := by
  simp [State.reject]
@[simp] theorem State.reject_rejectPolicy (s : State) : (s.reject).rejectPolicy = s.rejectPolicy := by
  simp [State.reject]
@[simp] theorem State.reject_environment (s : State) : (s.reject).environment = s.environment := by
  simp [State.reject]
@[simp] theorem State.reject_bufferNo (s : State) : (s.reject).bufferNo = s.bufferNo := by
  simp [State.reject]
@[simp] theorem State.reject_pending (s : State) : (s.reject).pending = s.pending := by
  simp [State.reject]
@[simp] theorem State.reject_lens (s : State) : s.reject.lens = s.lens ++ [0] := by
  simp [State.reject]
theorem State.reject_draws (s : State) :
    s.reject.draws = s.draws + if s.rejectPolicy = .havoc then 4 else 0 := by
  simp [State.reject]

/-- Every byte after a successful operation, as the caller reads it. -/
theorem State.complete_byte (s : State) (n : Len) (bs : List Byte) (j : Nat) :
    (s.complete n bs).byte j =
      if s.trailPolicy = .havoc ∧ n ≤ j ∧ j < 4 then Config.freeByte s.environment (s.draws + (j - n))
      else (bs[j]?).getD (s.byte j) := by
  simp only [State.byte, State.complete_stored, State.complete_environment, State.complete_bufferNo]
  split
  · rfl
  · split
    · rename_i h; simp [h]
    · rename_i h; simp [List.getElem?_eq_none (Nat.le_of_not_lt h)]

/-- Every byte after a rejected operation, as the caller reads it. -/
theorem State.reject_byte (s : State) (j : Nat) :
    s.reject.byte j = if s.rejectPolicy = .havoc ∧ j < 4 then Config.freeByte s.environment (s.draws + j) else s.byte j := by
  simp only [State.byte, State.reject_stored, State.reject_environment, State.reject_bufferNo]
  split <;> rfl

/-- A store keeps every other index. -/
theorem State.keeps_storeByte (s : State) {i j : Nat} (b : Byte) (h : j ≠ i) : s.keeps (s.storeByte i b) j :=
  State.keeps_of_stored rfl rfl (by simp [h])

theorem State.inv_iff (s : State) : s.inv = true ↔ s.out.wf = true ∧ s.out.below s.cap = true := by
  simp [State.inv]

/-- A write inside the buffer keeps the invariant. -/
theorem State.inv_storeByte {s : State} {i : Nat} (b : Byte) (h : s.inv = true) (hi : i < s.cap) :
    (s.storeByte i b).inv = true := by
  rw [State.inv_iff] at *
  exact ⟨Memory.wf_write i b h.1, Memory.below_write b h.2 hi⟩

theorem State.inv_drawByte {s : State} {i : Nat} (h : s.inv = true) (hi : i < s.cap) : (s.drawByte i).inv = true :=
  State.inv_storeByte (Config.freeByte s.environment s.draws) h hi

theorem State.inv_storeFrom {s : State} {i : Nat} {bs : List Byte} (h : s.inv = true) (hi : i + bs.length ≤ s.cap) :
    (s.storeFrom i bs).inv = true := by
  induction bs generalizing s i with
  | nil => exact h
  | cons b bs ih =>
    simp only [List.length_cons] at hi
    exact ih (State.inv_storeByte b h (by omega)) (by simp only [State.cap, State.storeByte_capExtra] at *; omega)

theorem State.inv_drawFrom {s : State} {i n : Nat} (h : s.inv = true) (hi : i + n ≤ s.cap) :
    (s.drawFrom i n).inv = true := by
  induction n generalizing s i with
  | zero => exact h
  | succ n ih =>
    refine ih (State.inv_drawByte h (by omega)) ?_
    simp only [State.cap, State.drawByte_capExtra] at *
    omega

theorem State.four_le_cap (s : State) : 4 ≤ s.cap := Nat.le_add_left 4 s.capExtra

theorem State.inv_settleLanes {s : State} {p : Config.Policy} {first : Nat} (h : s.inv = true) (hf : first ≤ 4) :
    (s.settleLanes p first).inv = true := by
  cases p with
  | untouched => exact h
  | havoc =>
    have := s.four_le_cap
    exact State.inv_drawFrom h (by simp only [Config.lanes]; omega)

/-- A successful operation of at most four bytes keeps the invariant. -/
theorem State.inv_complete {s : State} {n : Len} {bs : List Byte} (h : s.inv = true) (hb : bs.length ≤ 4) :
    (s.complete n bs).inv = true := by
  have := s.four_le_cap
  exact State.inv_settleLanes (State.inv_storeFrom h (by omega)) (by omega)

/-- A rejected operation keeps the invariant. -/
theorem State.inv_reject {s : State} (h : s.inv = true) : s.reject.inv = true :=
  State.inv_settleLanes h (by omega)

/-- Every operation is one of the two shared ends: it completes with the bytes and length of its form, or it is
rejected. -/
theorem exec_cases (i : Instr) (s : State) :
    (i.form ≠ .encRej ∧ exec i s = .next (s.complete (lenOfForm i.form) (bytesOfInstr i))) ∨
      (i.form = .encRej ∧ exec i s = .next s.reject) := by
  cases i <;> simp [Instr.form, exec, execEnc1, execEnc2, execEnc3, execEnc4, execEncRej, lenOfForm, bytesOfInstr]

theorem State.storeFrom_record (s : State) (ls : List Len) (i : Nat) (bs : List Byte) :
    State.storeFrom { s with lens := ls } i bs = { s.storeFrom i bs with lens := ls } := by
  induction bs generalizing s i with
  | nil => rfl
  | cons b bs ih => exact ih (s.storeByte i b) (i + 1)

theorem State.drawFrom_record (s : State) (ls : List Len) (i n : Nat) :
    State.drawFrom { s with lens := ls } i n = { s.drawFrom i n with lens := ls } := by
  induction n generalizing s i with
  | zero => rfl
  | succ n ih => exact ih (s.drawByte i) (i + 1)

/-- The record of results has no influence on the lanes. -/
theorem State.settleLanes_record (s : State) (ls : List Len) (p : Config.Policy) (first : Nat) :
    State.settleLanes { s with lens := ls } p first = { s.settleLanes p first with lens := ls } := by
  cases p with
  | untouched => rfl
  | havoc => exact State.drawFrom_record s ls first _

/-- The record of results has no influence on a successful operation. -/
theorem State.complete_record (s : State) (ls : List Len) (n : Len) (bs : List Byte) :
    State.complete { s with lens := ls } n bs = { s.complete n bs with lens := ls ++ [n] } := by
  simp only [State.complete, State.deliver, State.storeFrom_record, State.settleLanes_record]

/-- The record of results has no influence on a rejected operation. -/
theorem State.reject_record (s : State) (ls : List Len) :
    State.reject { s with lens := ls } = { s.reject with lens := ls ++ [0] } := by
  simp only [State.reject, State.deliver, State.settleLanes_record]

/-- An instruction writes as many bytes as it returns. -/
theorem bytesOfInstr_length (i : Instr) : (bytesOfInstr i).length = (lenOfForm i.form : Nat) := by
  cases i <;> rfl

end Sys2Proof.Machine
end

