-- ==== Sys2Proof/Laws/PerInstr.lean ====
section
/-! SUPPORT. The statements made of every instruction as syntax, one lemma per constructor. -/

namespace Sys2Proof.Laws.WordForm

/-- The operation word of a well-formed instruction selects the instruction's own form (R46, R49). -/
def Statement (i : Instr) : Prop := i.wf = true → Form.of (encodeWord i) = i.form

theorem enc1 (a : BitVec 7) : Statement (.enc1 a) := by
  intro _
  refine Form.of_enc1 ?_
  have := a.isLt
  simp only [encodeWord, append_toNat]; simp; omega

theorem enc2 (a : BitVec 5) (b : BitVec 6) : Statement (.enc2 a b) := by
  intro h
  have ha := a.isLt
  have hb := b.isLt
  simp only [Instr.wf, decide_eq_true_eq] at h
  have e : (encodeWord (.enc2 a b)).toNat = a.toNat * 64 + b.toNat := by
    simp only [encodeWord, append_toNat]; simp
  exact Form.of_enc2 (by omega) (by omega)

theorem enc3 (a : BitVec 4) (b c : BitVec 6) : Statement (.enc3 a b c) := by
  intro h
  have ha := a.isLt
  have hb := b.isLt
  have hc := c.isLt
  simp only [Instr.wf, decide_eq_true_eq] at h
  have e : (encodeWord (.enc3 a b c)).toNat = (a.toNat * 64 + b.toNat) * 64 + c.toNat := by
    simp only [encodeWord, append_toNat]; simp
  exact Form.of_enc3 (by omega) (by omega)

theorem enc4 (a : BitVec 3) (b c d : BitVec 6) : Statement (.enc4 a b c d) := by
  intro h
  have ha := a.isLt
  have hb := b.isLt
  have hc := c.isLt
  have hd := d.isLt
  simp only [Instr.wf, decide_eq_true_eq] at h
  have e : (encodeWord (.enc4 a b c d)).toNat = ((a.toNat * 64 + b.toNat) * 64 + c.toNat) * 64 + d.toNat := by
    simp only [encodeWord, append_toNat]; simp
  exact Form.of_enc4 (by omega) (by omega)

theorem encRej (value : Word) : Statement (.encRej value) := by
  intro h
  obtain ⟨_, _, _, m4⟩ := Config.max_values
  simp only [Instr.wf, decide_eq_true_eq] at h
  exact Form.of_encRej (by simp only [encodeWord]; omega)

end Sys2Proof.Laws.WordForm
end

