-- ==== Sys2Proof/Laws/Step.lean ====
section
/-! SUPPORT. What a step can do, said once, and how a run takes its steps. -/

namespace Sys2Proof.Machine

/-- An operation on this hardware: it returns the length of its value, writes the value's bytes to the indices below
the length, and changes nothing else. -/
theorem exec_decode_untouching (v : Word) {s : State} (h : s.untouching) :
    ∃ t, exec (decode v) s = .next t ∧ t.lens = s.lens ++ [lenOf v] ∧
      (∀ i, t.stored i = if i < (lenOf v : Nat) then (bytesOf v)[i]? else s.stored i) ∧
      (∀ i, t.byte i = ((bytesOf v)[i]?).getD (s.byte i)) ∧
      s.sameSetting t ∧ t.draws = s.draws := by
  rcases exec_cases (decode v) s with ⟨hf, e⟩ | ⟨hf, e⟩
  · refine ⟨_, e, by rw [← lenOf_eq]; simp, fun i => ?_, fun i => ?_, by simp [State.sameSetting], ?_⟩
    · rw [State.complete_stored, if_neg (by simp [h.1]), show bytesOfInstr (decode v) = bytesOf v from rfl, bytesOf_length]
    · rw [State.complete_byte, if_neg (by simp [h.1])]; rfl
    · rw [State.complete_draws, h.1]; rfl
  · have l : lenOf v = 0 := by rw [lenOf_eq, hf]; rfl
    have b : bytesOf v = [] := List.eq_nil_of_length_eq_zero (by rw [bytesOf_length, l]; rfl)
    refine ⟨_, e, by rw [l]; simp, fun i => ?_, fun i => ?_, by simp [State.sameSetting], ?_⟩
    · rw [State.reject_stored, if_neg (by simp [h.2]), l]; simp
    · rw [State.reject_byte, if_neg (by simp [h.2]), b]; rfl
    · rw [State.reject_draws, h.2]; rfl

/-- An operation of any value under any policies: it returns the length of its value, each byte below the length is the
value's, indices 4 and above are untouched, and no setting changes. -/
theorem exec_decode (v : Word) (s : State) :
    ∃ t, exec (decode v) s = .next t ∧ t.lens = s.lens ++ [lenOf v] ∧
      (∀ i, i < (lenOf v : Nat) → t.stored i = (bytesOf v)[i]?) ∧ (∀ i, 4 ≤ i → s.keeps t i) ∧ s.sameSetting t := by
  rcases exec_cases (decode v) s with ⟨hf, e⟩ | ⟨hf, e⟩
  · refine ⟨_, e, by rw [← lenOf_eq]; simp, fun i hi => ?_, fun i hi => ?_, by simp [State.sameSetting]⟩
    · rw [State.complete_stored, if_neg (by rw [← lenOf_eq]; omega), bytesOfInstr_length, ← lenOf_eq, if_pos hi]; rfl
    · refine State.keeps_of_stored (by simp) (by simp) ?_
      rw [State.complete_stored, if_neg (by omega), bytesOfInstr_length, if_neg (by omega)]
  · have l : (lenOf v : Nat) = 0 := by rw [lenOf_eq, hf]; rfl
    refine ⟨_, e, by rw [lenOf_eq, hf]; simp [lenOfForm], fun i hi => by omega, fun i hi => ?_, by simp [State.sameSetting]⟩
    exact State.keeps_of_stored (by simp) (by simp) (by rw [State.reject_stored, if_neg (by omega)])

/-- Below its length an operation stores a byte of its value, which is then the byte of that index. -/
theorem byte_of_stored_bytesOf {v : Word} {t : State} {i : Nat} (hi : i < (lenOf v : Nat))
    (h : t.stored i = (bytesOf v)[i]?) : (bytesOf v)[i]? = some (t.byte i) := by
  have hb : (bytesOf v)[i]? = some ((bytesOf v)[i]'(by rw [bytesOf_length]; exact hi)) := List.getElem?_eq_getElem _
  rw [State.byte_of_stored (h.trans hb), hb]

/-- Every access of the caller that answers a next state is an operation, a load inside the buffer, a store inside the
buffer, or a fresh buffer. -/
theorem access_cases {a : Access} {s t : State} (h : access a s = .next t) :
    (∃ v, a = .operation v ∧ exec (decode v) s = .next t) ∨
    (∃ i, a = .load i ∧ i < s.cap ∧ t = s) ∨
    (∃ i b, a = .store i b ∧ i < s.cap ∧ t = s.storeByte i b) ∨
    (∃ extra, a = .freshBuffer extra ∧ t = { s with out := [], capExtra := extra, bufferNo := s.bufferNo + 1 }) := by
  cases a with
  | operation v => exact .inl ⟨v, rfl, h⟩
  | load i =>
    simp only [access, callerLoad] at h
    split at h <;> cases h
    exact .inr (.inl ⟨i, rfl, ‹_›, rfl⟩)
  | store i b =>
    simp only [access, callerStore] at h
    split at h <;> cases h
    exact .inr (.inr (.inl ⟨i, b, rfl, ‹_›, rfl⟩))
  | freshBuffer extra => cases h; exact .inr (.inr (.inr ⟨extra, rfl, rfl⟩))

theorem step_of_no_request {s : State} (h : s.pending = []) : step s = .next s := by rw [step, takeRequest, h]

theorem step_of_alone {s : State} {a : Access} {rest : List Request} (h : s.pending = .alone a :: rest) :
    step s = access a s.taken := by rw [step, takeRequest, h]

theorem step_of_overlapping {s : State} {v : Word} {a : Access} {rest : List Request}
    (h : s.pending = .overlapping v a :: rest) : step s = .refused .overlappingUse := by rw [step, takeRequest, h]

/-- A step that answers a next state had no request to take, or took an access that answers it. -/
theorem step_cases {s t : State} (h : step s = .next t) :
    (s.pending = [] ∧ t = s) ∨ ∃ a rest, s.pending = .alone a :: rest ∧ access a s.taken = .next t := by
  unfold step takeRequest at h
  split at h
  · cases h; exact .inl ⟨‹_›, rfl⟩
  · exact .inr ⟨_, _, ‹_›, h⟩
  · cases h

/-- A run of any machine takes its first step and then the rest. -/
theorem hostRun_succ (M : Host.Core) {s t : M.State} (k : Nat) (h : M.step s = .next t) :
    M.run (k + 1) s = M.run k t := by
  simp only [Host.Core.run, h]

/-- A run takes its first step and then the rest. -/
theorem run_succ {s t : State} (k : Nat) (h : step s = .next t) :
    Host.Core.run Sys2Proof.core (k + 1) s = Host.Core.run Sys2Proof.core k t :=
  hostRun_succ Sys2Proof.core k h

end Sys2Proof.Machine
end

