-- ==== Sys2Proof/Tests/Slice0.lean ====
section
/-! SUPPORT. The model's own tests. Expected results come from the tables of `95_test_vectors.md` and the rules named;
a `witness_` theorem shows values that meet the hypotheses of the statement it is named after. -/

open Sys2Proof Sys2Proof.Machine Sys2Proof.Safety

namespace Sys2Proof.Tests

/-- A buffer of four bytes 0xFF, the start of program P1. -/
def filled : State := { State.reset with out := [(0, 0xFF), (1, 0xFF), (2, 0xFF), (3, 0xFF)] }

/-- The next state of an outcome. -/
def after : Host.Outcome State Fault Refusal → Option State
  | .next t => some t
  | _ => none

/-- The lengths returned and what is written at the first four indices after an outcome. -/
def seen (o : Host.Outcome State Fault Refusal) : Option (List Len × List (Option Byte)) :=
  (after o).map fun t => (t.lens, [t.stored 0, t.stored 1, t.stored 2, t.stored 3])

/-- The machine was stopped by this refusal. -/
def refusedBy : Host.Outcome State Fault Refusal → Option Refusal
  | .refused r => some r
  | _ => none

/-- The machine was stopped by this fault. -/
def faultedBy : Host.Outcome State Fault Refusal → Option Fault
  | .fault r => some r
  | _ => none

/-! ### Well-formedness: one ill-formed term for each check -/

theorem test_wf_refuses_overlong_enc2 : (Instr.enc2 1 0x3F).wf = false := by decide
theorem test_wf_refuses_overlong_enc3 : (Instr.enc3 0 0x1F 0x3F).wf = false := by decide
theorem test_wf_refuses_overlong_enc4 : (Instr.enc4 0 0x0F 0x3F 0x3F).wf = false := by decide
theorem test_wf_refuses_enc4_lead_above_F4 : (Instr.enc4 5 0 0 0).wf = false := by decide
theorem test_wf_refuses_enc4_above_limit : (Instr.enc4 4 0x10 0 0).wf = false := by decide
theorem test_wf_refuses_valid_encRej : (Instr.encRej 0x10FFFF).wf = false := by decide
theorem test_wf_takes_the_edges :
    (Instr.enc1 0x7F).wf && (Instr.enc2 2 0).wf && (Instr.enc3 0 0x20 0).wf && (Instr.enc4 0 0x10 0 0).wf &&
      (Instr.enc4 4 0x0F 0x3F 0x3F).wf && (Instr.encRej 0x110000).wf = true := by decide

/-! ### Decoding: words written out bit by bit under the formats of R49 -/

-- IF1, value 65 (R72): 25 zero bits, a = 1000001
theorem test_decode_enc1 : decode 0b00000000000000000000000001000001#32 = .enc1 0b1000001#7 := by decide
-- IF2, value 169 (R73): 21 zero bits, a = 00010, b = 101001
theorem test_decode_enc2 : decode 0b00000000000000000000000010101001#32 = .enc2 0b00010#5 0b101001#6 := by decide
-- IF3, value 0x20AC (R74): 16 zero bits, a = 0010, b = 000010, c = 101100
theorem test_decode_enc3 :
    decode 0b00000000000000000010000010101100#32 = .enc3 0b0010#4 0b000010#6 0b101100#6 := by decide
-- IF4, value 0x1F600 (R75): 11 zero bits, a = 000, b = 011111, c = 011000, d = 000000
theorem test_decode_enc4 :
    decode 0b00000000000000011111011000000000#32 = .enc4 0b000#3 0b011111#6 0b011000#6 0b000000#6 := by decide
-- IF4, the second row of the opcode table, value 0x10FFFF
theorem test_decode_enc4_row2 :
    decode 0b00000000000100001111111111111111#32 = .enc4 0b100#3 0b001111#6 0b111111#6 0b111111#6 := by decide
-- IF0: bit 31 set over a small low part is rejected, not truncated (R47)
theorem test_decode_encRej : decode 0b10000000000000000000000001000001#32 = .encRej 0x80000041#32 := by decide
-- the edges of the five ranges (R46)
theorem test_form_edges :
    [0x0, 0x7F, 0x80, 0x7FF, 0x800, 0xFFFF, 0x10000, 0x10FFFF, 0x110000, 0xFFFFFFFF].map Form.of =
      [.enc1, .enc1, .enc2, .enc2, .enc3, .enc3, .enc4, .enc4, .encRej, .encRej] := by decide
theorem test_encodeWord :
    [encodeWord (.enc1 0x41), encodeWord (.enc2 0x02 0x29), encodeWord (.enc3 0x2 0x02 0x2C),
      encodeWord (.enc4 0x0 0x1F 0x18 0x00)] = [0x41, 0xA9, 0x20AC, 0x1F600] := by decide
theorem test_decodeBits_wide : decodeTableWord 33 0x41 = none := by decide
-- the ordered rows and the disjoint pairs at the values between which they change (R48)
theorem test_tables_agree :
    [0x7F, 0x80, 0x7FF, 0x800, 0xFFFF, 0x10000, 0xFFFFF, 0x100000, 0x10FFFF, 0x110000, 0x200000, 0x80000041].all
      (fun v => Form.byTable v == some (Form.of v)
        && (disjointPatterns.filter fun r => r.catches v).map SelectRow.form == [Form.of v]) = true := by decide

/-! ### The five forms -/

-- program P1, steps 1 to 4, each on the start buffer
theorem test_enc1 : seen (exec (decode 0x41) filled) = some ([1], [some 0x41, some 0xFF, some 0xFF, some 0xFF]) := by
  decide
theorem test_enc2 : seen (exec (decode 0xA9) filled) = some ([2], [some 0xC2, some 0xA9, some 0xFF, some 0xFF]) := by
  decide
theorem test_enc3 : seen (exec (decode 0x20AC) filled) = some ([3], [some 0xE2, some 0x82, some 0xAC, some 0xFF]) := by
  decide
theorem test_enc4 :
    seen (exec (decode 0x1F600) filled) = some ([4], [some 0xF0, some 0x9F, some 0x98, some 0x80]) := by decide
-- zero is a value and a byte (R72)
theorem test_enc1_zero : seen (exec (decode 0) filled) = some ([1], [some 0, some 0xFF, some 0xFF, some 0xFF]) := by
  decide
-- `encode(2048)` of the source; bytes nothing has written stay unwritten
theorem test_enc3_least : seen (exec (decode 2048) State.reset) = some ([3], [some 0xE0, some 0xA0, some 0x80, none]) := by
  decide
theorem test_enc4_greatest :
    seen (exec (decode 1114111) filled) = some ([4], [some 0xF4, some 0x8F, some 0xBF, some 0xBF]) := by decide
-- `encode(1114112)` of the source, and a value whose low part looks valid
theorem test_encRej : after (exec (decode 1114112) filled) = some { filled with lens := [0] } := by decide
theorem test_encRej_high_bit : after (exec (decode 0x80000041) filled) = some { filled with lens := [0] } := by decide
-- 0xD800 is encoded like any other value (R59)
theorem test_bytes_D800 : bytesOf 0xD800 = [0xED, 0xA0, 0x80] := by decide
-- the write enables of R18 for `len` = 2
theorem test_wen : (List.range 4).map (wen 0xA9) = [true, true, false, false] := by decide

/-! ### The step and the caller -/

theorem test_step_first_operation :
    seen (step (State.reset.withFetchWord 32 0xA9)) = some ([2], [some 0xC2, some 0xA9, none, none]) := by decide
-- of a word wider than the operand word nothing is issued
theorem test_withFetchWord_wide : State.reset.withFetchWord 33 0x41 = State.reset := by decide
theorem test_step_idle : after (step State.reset) = some State.reset := by decide
theorem test_store_keeps_order :
    after (callerStore 1 0x22 { State.reset with out := [(0, 0x11), (2, 0x33)] }) =
      some { State.reset with out := [(0, 0x11), (1, 0x22), (2, 0x33)] } := by decide
theorem test_store_beyond_cap : faultedBy (callerStore 4 0 State.reset) = some (.outsideBuffer 4) := by decide
theorem test_overlap_refused :
    refusedBy (step { State.reset with pending := [.overlapping 0x41 (.load 0)] }) = some .overlappingUse := by decide
theorem test_memory_not_wf : Memory.wf [(1, 0), (0, 0)] = false := by decide
theorem test_inv_refuses_index_at_cap : State.inv { State.reset with out := [(4, 0)] } = false := by decide

-- each encoder of a system has an environment of its own, and a fresh buffer is another buffer (R41, R131)
theorem test_systemReset : (systemReset 3).map State.environment = [0, 1, 2] := by decide
theorem test_fresh_buffer :
    (after (callerFreshBuffer 1 filled)).map (fun t => (t.out, t.bufferNo, t.cap)) = some ([], 1, 5) := by decide

/-! ### Witnesses: values that meet the hypotheses of the statements -/

theorem witness_FieldsAreShiftsAndMasks :
    decode 0x7F = .enc1 0x7F ∧ decode 0x7FF = .enc2 0x1F 0x3F ∧ decode 0x800 = .enc3 0 0x20 0 ∧
      decode 0x10FFFF = .enc4 4 0x0F 0x3F 0x3F ∧ decode 0x110000 = .encRej 0x110000 ∧ Form.of 0xFFFFFFFF = .encRej := by
  decide
theorem witness_DecodeAndEncodeWordAgree : (Instr.enc4 4 0x0F 0x3F 0x3F).wf = true := by decide
theorem witness_TableWordsDecodeAsNumbers : (32 ≤ 32 ∧ 0xFFFFFFFF < 2 ^ 32) ∧ (8 ≤ 32 ∧ 0x41 < 2 ^ 8) ∧ 32 < 33 := by
  decide
theorem witness_RejectedSpaceIsEverythingAboveTheLimit :
    0x00110000 ≤ (0x1FFFFF : Word).toNat ∧ (0x1FFFFF : Word).toNat ≤ 0x1FFFFF ∧
      (0x200041 : Word).extractLsb' 21 11 ≠ 0 ∧ Form.of 0x200041 = .encRej := by decide
theorem witness_NoValueInRangeIsExcluded :
    (0x10FFFF : Word).toNat ≤ 1114111 ∧ 2048 ≤ (0xFFFF : Word).toNat ∧ (0xFFFF : Word).toNat ≤ 65535 := by decide
theorem witness_ByteFormatsAndTheirRanges :
    1 ≤ 1 ∧ 3 ≤ 3 ∧ (bytesOf 0x10FFFF)[3]? = some 0xBF ∧ (bytesOf 0x80)[1]? = some 0x80 := by decide
theorem witness_EncodedFormLayout :
    decode 0 = .enc1 0 ∧ decode 0x80 = .enc2 2 0 ∧ decode 0xFFFF = .enc3 0xF 0x3F 0x3F ∧
      decode 0x10000 = .enc4 0 0x10 0 0 ∧ decode 0x110000 = .encRej 0x110000 ∧ (bytesOf 0x80)[0]? = some 0xC2 := by
  decide
theorem witness_LeadingOnesTellTheByteKinds :
    (bytesOf 0x20AC)[0]? = some 0xE2 ∧ (bytesOf 0x20AC)[2]? = some 0xAC ∧
      [0x7F, 0x80, 0xBF, 0xC0, 0xDF, 0xE0, 0xEF, 0xF0, 0xF7, 0xF8].map leadingOnes = [0, 1, 1, 2, 2, 3, 3, 4, 4, 5] := by
  decide
/-- The hypotheses of `EncodeOperationInFull`, `StepIsThePureFunctionOnTheBuffer`, `PortsSayWhatIsWritten`,
`BytesBeyondTheLengthAreUntouched`, `OperationsArePure` and `OperationsAreIdempotent`. -/
theorem witness_untouching_and_inv : filled.untouching ∧ State.reset.untouching ∧ filled.inv = true := by
  refine ⟨⟨?_, ?_⟩, ⟨?_, ?_⟩, ?_⟩ <;> decide
theorem witness_Enc1WritesTheValueAsOneByte :
    (127 : Word).toNat ≤ 127 ∧ filled.trailPolicy = .untouched ∧ decode 127 = .enc1 0x7F := by decide
theorem witness_Enc2WritesTwoBytes :
    128 ≤ (128 : Word).toNat ∧ (2047 : Word).toNat ≤ 2047 ∧ 128 ≤ (2047 : Word).toNat ∧
      filled.trailPolicy = .untouched ∧ decode 128 = .enc2 2 0 := by decide
theorem witness_Enc3WritesThreeBytes :
    2048 ≤ (65535 : Word).toNat ∧ (65535 : Word).toNat ≤ 65535 ∧ filled.trailPolicy = .untouched ∧
      decode 65535 = .enc3 0xF 0x3F 0x3F := by decide
theorem witness_Enc4WritesFourBytes :
    65536 ≤ (1114111 : Word).toNat ∧ (1114111 : Word).toNat ≤ 1114111 ∧ decode 65536 = .enc4 0 0x10 0 0 := by decide
/-- Also the hypotheses of `RejectionLeavesNoTrace`. -/
theorem witness_EncRejReturnsZeroAndWritesNothing :
    1114111 < (1114112 : Word).toNat ∧ filled.rejectPolicy = .untouched ∧ decode 1114112 = .encRej 1114112 := by decide
theorem witness_PoliciesAgreeOnTheResult :
    { filled with trailPolicy := .havoc } =
      { filled with
        trailPolicy := ({ filled with trailPolicy := Config.Policy.havoc } : State).trailPolicy
        rejectPolicy := ({ filled with trailPolicy := Config.Policy.havoc } : State).rejectPolicy } := rfl
theorem witness_HavocDrawsTheOpenBytes :
    ((0x41 : Word).toNat ≤ 1114111 ∧ ({ filled with trailPolicy := .havoc } : State).trailPolicy = .havoc ∧
      (lenOf 0x41 : Nat) ≤ 3 ∧ 3 < 4) ∧
    (1114111 < (0xFFFFFFFF : Word).toNat ∧ ({ filled with rejectPolicy := .havoc } : State).rejectPolicy = .havoc) := by
  decide
theorem witness_LengthResultValues :
    (0x7F : Word).toNat ≤ (0x80 : Word).toNat ∧ (0x80 : Word).toNat ≤ 1114111 ∧ lenOf 0x7F ≤ lenOf 0x80 := by decide
theorem witness_LengthIsMinimal :
    (127 : Word).toNat ≤ 1114111 ∧ (127 : Word).toNat ≤ classMax 1 ∧ (127 : Word).toNat < 128 ∧
      (2047 : Word).toNat ≤ classMax 2 ∧ (65535 : Word).toNat ≤ classMax 3 ∧ (1114111 : Word).toNat ≤ classMax 4 := by
  decide
/-- The hypotheses of `PayloadRoundTrip`, `OutputIsWellFormed`, `OrderIsPreserved` and
`EncodingIsInjectiveAndSegmentable`; the payload is that of `encode(2048)`. -/
theorem witness_valid_values :
    (2048 : Word).toNat ≤ 1114111 ∧ (0x10FFFF : Word).toNat ≤ 1114111 ∧ (2048 : Word) ≠ 0x10FFFF ∧
      (2048 : Word).toNat < (0x10FFFF : Word).toNat ∧ payload (bytesOf 2048) = 2048 := by decide
/-- Also the hypotheses of `StreamsAreUniquelyDecodable`, with the same list on both sides. -/
theorem witness_stream_values : ∀ v ∈ [(0xA9 : Word), 0x41], v.toNat ≤ 1114111 := by simp
-- part of the stream of program P1: a form starts at each byte that is not of format CONT
theorem test_stream_starts : ([0xC2, 0xA9, 0x41] : List Byte).map isCont = [false, true, false] := by decide
theorem test_stream : stream [0xA9, 0x41] = [0xC2, 0xA9, 0x41] := by decide
theorem witness_StepRunsTheDecodedOperation :
    (filled.withFetchWord 32 0xA9).pending = .alone (.operation 0xA9) :: [] ∧ 32 ≤ 32 ∧ 0xA9 < 2 ^ 32 ∧ 32 < 33 := by decide
theorem witness_CallerUsesItsBufferBetweenOperations :
    State.reset.pending = [] ∧ State.reset.cap ≤ 4 ∧ 3 < State.reset.cap ∧
      ({ filled with pending := [.alone (.store 3 0)] } : State).pending = .alone (.store 3 0) :: [] ∧
      ({ filled with pending := [.alone (.load 4)] } : State).pending = .alone (.load 4) :: [] ∧
      ({ filled with pending := [.alone (.freshBuffer 2)] } : State).pending = .alone (.freshBuffer 2) :: [] := by decide
-- program P5: one step of each caller, in either order
theorem witness_DistinctBuffersDoNotInteract :
    [0, 1].Nodup ∧ ¬ [0, 0].Nodup ∧
      (match stepTogether [0, 1] [filled.issueFirst 0x41, filled.issueFirst 0xFFFF] with
        | .next sys => some sys
        | _ => none) =
      (match stepTogether [1, 0] [filled.issueFirst 0x41, filled.issueFirst 0xFFFF] with
        | .next sys => some sys
        | _ => none) ∧
      ({ filled with pending := [.overlapping 0x41 (.operation 0x42)] } : State).pending =
        .overlapping 0x41 (.operation 0x42) :: [] := by decide
theorem witness_ByteWritesCommute :
    Memory.wf filled.out = true ∧ ([((0 : Nat), (1 : Byte)), (1, 2)].map Prod.fst).Nodup ∧
      [((0 : Nat), (1 : Byte)), (1, 2)].Perm [(1, 2), (0, 1)] := by decide
-- program P2, steps 2 and 3: the byte at index 2 is left from the first of them
theorem witness_RunOfOperationsAppliesThemInOrder :
    let s := { filled with pending := [(0x20AC : Word), 0x7FF].map fun v => .alone (.operation v) }
    s.untouching ∧ s.pending = [(0x20AC : Word), 0x7FF].map (fun v => .alone (.operation v)) ∧
      2 < (lenOf 0x20AC : Nat) ∧ (lenOf 0x7FF : Nat) ≤ 2 := by
  refine ⟨⟨?_, ?_⟩, ?_⟩ <;> decide
/-- Also the hypothesis of `AdmittedRequestsStepOn`. -/
theorem witness_AdmittedCallersAreNeverStopped :
    admittedRequests 4 [.alone (.store 3 0), .alone (.operation 0x41), .alone (.freshBuffer 2), .alone (.load 5)] =
      true := by decide
theorem witness_EveryStepKeepsTheBufferInvariant :
    filled.inv = true ∧ (after (step (filled.issueFirst 0x41))).isSome = true := by decide
theorem witness_StepsChangeNoSetting :
    (after (step { filled with pending := [.alone (.freshBuffer 2)] })).map State.capExtra = some 2 := by decide

end Sys2Proof.Tests
end

section
/-! PROOFS. Rules about one operation on the hardware of the spec: the setting it keeps, the invariant it keeps, the
bytes it leaves alone (R34), and the bytes it can write (R97). -/

namespace Sys2Proof.Machine

theorem State.untouching_of_sameSetting {s t : State} (h : s.sameSetting t) (hs : s.untouching) : t.untouching := by
  obtain ⟨_, htrail, hreject, _⟩ := h
  exact ⟨htrail.trans hs.1, hreject.trans hs.2⟩

/-- In an unchanged setting an index with no write to it is untouched. -/
theorem State.keeps_of_sameSetting {s t : State} {i : Nat} (h : s.sameSetting t) (hi : t.stored i = s.stored i) :
    s.keeps t i := by
  obtain ⟨_, _, _, henv, hbuf, _⟩ := h
  exact State.keeps_of_stored henv hbuf hi

theorem State.sameSetting_storeByte (s : State) (i : Nat) (b : Byte) : s.sameSetting (s.storeByte i b) :=
  ⟨rfl, rfl, rfl, rfl, rfl, rfl⟩

/-- Every operation keeps the invariant, whichever of the two shared ends it has. -/
theorem inv_exec {i : Instr} {s t : State} (h : s.inv = true) (e : exec i s = .next t) : t.inv = true := by
  rcases exec_cases i s with ⟨_, e'⟩ | ⟨_, e'⟩
  · obtain rfl := Host.Outcome.next.inj (e'.symm.trans e)
    exact State.inv_complete h (by rw [bytesOfInstr_length]; omega)
  · obtain rfl := Host.Outcome.next.inj (e'.symm.trans e)
    exact State.inv_reject h

/-- R34 for one operation: an index that is not below the length is untouched. -/
theorem keeps_of_operation {v : Word} {s t : State} (hs : s.untouching) (e : exec (decode v) s = .next t) {i : Nat}
    (hi : (lenOf v : Nat) ≤ i) : s.keeps t i := by
  obtain ⟨t', e', _, hstored, _, hset, _⟩ := exec_decode_untouching v hs
  obtain rfl := Host.Outcome.next.inj (e'.symm.trans e)
  exact State.keeps_of_sameSetting hset (by rw [hstored, if_neg (by omega)])

/-- No byte of any form lies above 0xF7, the greatest byte of format `LEAD4` (R51 to R55). -/
theorem bytesOfInstr_le (i : Instr) : ∀ b ∈ bytesOfInstr i, b.toNat ≤ 0xF7 := by
  have hcont (p : BitVec 6) : (cont p).toNat ≤ 0xF7 := by rw [cont_toNat]; omega
  cases i with
  | enc1 a =>
    have : (lead1 a).toNat ≤ 0xF7 := by rw [lead1_toNat]; omega
    simpa [bytesOfInstr, enc1Bytes] using this
  | enc2 a b =>
    have : (lead2 a).toNat ≤ 0xF7 := by rw [lead2_toNat]; omega
    simpa only [bytesOfInstr, enc2Bytes, List.forall_mem_cons] using ⟨this, hcont b, by simp⟩
  | enc3 a b c =>
    have : (lead3 a).toNat ≤ 0xF7 := by rw [lead3_toNat]; omega
    simpa only [bytesOfInstr, enc3Bytes, List.forall_mem_cons] using ⟨this, hcont b, hcont c, by simp⟩
  | enc4 a b c d =>
    have : (lead4 a).toNat ≤ 0xF7 := by rw [lead4_toNat]; omega
    simpa only [bytesOfInstr, enc4Bytes, List.forall_mem_cons] using ⟨this, hcont b, hcont c, hcont d, by simp⟩
  | encRej value => simp [bytesOfInstr]

/-- A step that takes an operation of the caller on this hardware: it takes that one request, returns the length of
the value, writes the value's bytes below the length and leaves every other byte alone. -/
theorem step_operation {v : Word} {rest : List Request} {s : State} (hs : s.untouching)
    (hp : s.pending = .alone (.operation v) :: rest) :
    ∃ t, step s = .next t ∧ t.untouching ∧ t.pending = rest ∧ t.lens = s.lens ++ [lenOf v] ∧
      (∀ i, i < (lenOf v : Nat) → (bytesOf v)[i]? = some (t.byte i)) ∧
      (∀ i, (lenOf v : Nat) ≤ i → s.keeps t i) := by
  have hs' : s.taken.untouching := hs
  obtain ⟨t, e, hlens, hstored, _, hset, _⟩ := exec_decode_untouching v hs'
  have hpending : t.pending = s.taken.pending := by
    obtain ⟨_, _, _, _, _, h⟩ := hset
    exact h
  refine ⟨t, (step_of_alone hp).trans e, State.untouching_of_sameSetting hset hs', ?_, hlens, fun i hi => ?_,
    fun i hi => keeps_of_operation hs' e hi⟩
  · rw [hpending, State.taken_pending, hp, List.tail_cons]
  · exact byte_of_stored_bytesOf hi (by rw [hstored, if_pos hi])

end Sys2Proof.Machine
end

section
/-! PROOFS. The statements about the buffer: untouched bytes (O23), idempotence (O24), runs in order (O42). -/

namespace Sys2Proof.Machine

/-- Settles O23: an operation stores below its length only (`keeps_of_operation`), and no byte it stores is above
0xF7 (`bytesOfInstr_le`). -/
theorem bytesBeyondTheLengthAreUntouched : Obligations.BytesBeyondTheLengthAreUntouched := by
  refine ⟨fun v s hs => ?_, fun v hmem => ?_⟩
  · obtain ⟨t, e, _⟩ := exec_decode_untouching v hs
    exact ⟨t, e, fun i hi => keeps_of_operation hs e hi⟩
  · exact absurd (bytesOfInstr_le (decode v) _ hmem) (by decide)

/-- Settles O24: the second operation stores what the first one stored already, and two canonical memories that read
the same are equal. -/
theorem operationsAreIdempotent : Obligations.OperationsAreIdempotent := by
  refine ⟨fun s i b => ⟨by simp, fun j hj => State.keeps_storeByte s b hj, State.sameSetting_storeByte s i b,
    rfl, rfl⟩, fun v s hs hinv => ?_⟩
  obtain ⟨t, et, htlens, htstored, _, hset, _⟩ := exec_decode_untouching v hs
  obtain ⟨u, eu, hulens, hustored, _⟩ := exec_decode_untouching v (State.untouching_of_sameSetting hset hs)
  have htinv := inv_exec hinv et
  have hstored : ∀ i, u.stored i = t.stored i := by
    intro i
    by_cases hi : i < (lenOf v : Nat)
    · rw [hustored, htstored, if_pos hi, if_pos hi]
    · rw [hustored, if_neg hi]
  have hout : u.out = t.out :=
    Memory.ext_of_wf ((State.inv_iff u).mp (inv_exec htinv eu)).1 ((State.inv_iff t).mp htinv).1 hstored
  exact ⟨t, u, et, eu, hout, htlens, hulens⟩

/-- Settles O42, by induction on the values: the first operation is one step (`step_operation`), and an index that no
later operation writes keeps what the first one left there. -/
theorem runOfOperationsAppliesThemInOrder : Obligations.RunOfOperationsAppliesThemInOrder := by
  intro vs
  induction vs with
  | nil =>
    intro s _ hp
    exact ⟨s, rfl, hp, by simp, by simp, fun i _ => s.keeps_refl i⟩
  | cons v vs ih =>
    intro s hs hp
    obtain ⟨s', hstep, hs', hp', hlens', hwritten', hkept'⟩ := step_operation hs hp
    obtain ⟨t, hrun, hpending, hlens, hwritten, hkept⟩ := ih s' hs' hp'
    refine ⟨t, (run_succ vs.length hstep).trans hrun, hpending, ?_, fun i k w hk hi hlast => ?_, fun i hnone => ?_⟩
    · rw [hlens, hlens', List.map_cons, List.append_assoc, List.singleton_append]
    · cases k with
      | zero =>
        obtain rfl : v = w := by simpa using hk
        have hlater : ∀ w ∈ vs, (lenOf w : Nat) ≤ i := by
          intro w hw
          obtain ⟨m, hm⟩ := List.mem_iff_getElem?.mp hw
          exact hlast (m + 1) w m.succ_pos hm
        obtain ⟨_, hbyte⟩ := hkept i hlater
        rw [hwritten' i hi, hbyte]
      | succ k => exact hwritten i k w hk hi fun m w hm hw => hlast (m + 1) w (Nat.succ_lt_succ hm) hw
    · obtain ⟨hv, hvs⟩ := List.forall_mem_cons.mp hnone
      exact State.keeps_trans (hkept' i hv) (hkept i hvs)

end Sys2Proof.Machine
end

section
/-! PROOFS. Facts about selecting a form and cutting the fields (R46 to R50): the range of each form, what a value
decodes to, which values a mask and match row catches, and a field as a shift and a mask. -/

namespace Sys2Proof

/-! ### The range of a form -/

/-- The least value of a form (R46). -/
def Form.least : Form → Nat
  | .enc1 => 0
  | .enc2 => 128
  | .enc3 => 2048
  | .enc4 => 65536
  | .encRej => 1114112

/-- The greatest value of a form (R46). -/
def Form.greatest : Form → Nat
  | .enc1 => 127
  | .enc2 => 2047
  | .enc3 => 65535
  | .enc4 => 1114111
  | .encRej => 4294967295

theorem Form.of_in_range (v : Word) : (Form.of v).least ≤ v.toNat ∧ v.toNat ≤ (Form.of v).greatest := by
  rcases decode_cases v with ⟨r, f, _⟩ | ⟨r, r', f, _⟩ | ⟨r, r', f, _⟩ | ⟨r, r', f, _⟩ | ⟨r, f, _⟩ <;>
    rw [f] <;> simp only [Form.least, Form.greatest] <;> omega

/-- The ranges of two forms do not meet, so a range holds the values of its own form only. -/
theorem Form.of_eq_iff (v : Word) (f : Form) : Form.of v = f ↔ f.least ≤ v.toNat ∧ v.toNat ≤ f.greatest := by
  refine ⟨fun h => h ▸ Form.of_in_range v, fun ⟨hl, hg⟩ => ?_⟩
  cases f with
  | enc1 => exact Form.of_enc1 hg
  | enc2 => exact Form.of_enc2 hl hg
  | enc3 => exact Form.of_enc3 hl hg
  | enc4 => exact Form.of_enc4 hl hg
  | encRej => exact Form.of_encRej hl

/-! ### What a value decodes to -/

theorem form_of_decode_eq {v : Word} {i : Instr} (h : decode v = i) : Form.of v = i.form := by rw [← decode_form, h]

theorem decode_eq_enc1 {v : Word} {a : BitVec 7} (h : decode v = .enc1 a) : a = v.extractLsb' 0 7 := by
  rw [decode, form_of_decode_eq h] at h
  cases h
  rfl

theorem decode_eq_enc2 {v : Word} {a : BitVec 5} {b : BitVec 6} (h : decode v = .enc2 a b) :
    a = v.extractLsb' 6 5 ∧ b = v.extractLsb' 0 6 := by
  rw [decode, form_of_decode_eq h] at h
  cases h
  exact ⟨rfl, rfl⟩

theorem decode_eq_enc3 {v : Word} {a : BitVec 4} {b c : BitVec 6} (h : decode v = .enc3 a b c) :
    a = v.extractLsb' 12 4 ∧ b = v.extractLsb' 6 6 ∧ c = v.extractLsb' 0 6 := by
  rw [decode, form_of_decode_eq h] at h
  cases h
  exact ⟨rfl, rfl, rfl⟩

theorem decode_eq_enc4 {v : Word} {a : BitVec 3} {b c d : BitVec 6} (h : decode v = .enc4 a b c d) :
    a = v.extractLsb' 18 3 ∧ b = v.extractLsb' 12 6 ∧ c = v.extractLsb' 6 6 ∧ d = v.extractLsb' 0 6 := by
  rw [decode, form_of_decode_eq h] at h
  cases h
  exact ⟨rfl, rfl, rfl, rfl⟩

/-! ### Fields as shifts and masks -/

theorem field_eq_zero_iff (v : Word) (lo w : Nat) : v.extractLsb' lo w = 0 ↔ v.toNat / 2 ^ lo % 2 ^ w = 0 := by
  rw [← BitVec.toNat_inj, field_toNat]; rfl

/-- The bits above a value are zero. -/
theorem high_bits_eq_zero {v : Word} {lo : Nat} (w : Nat) (h : v.toNat < 2 ^ lo) : v.extractLsb' lo w = 0 := by
  rw [field_eq_zero_iff, Nat.div_eq_of_lt h, Nat.zero_mod]

theorem field_toNat_le (v : Word) (lo w : Nat) : (v.extractLsb' lo w).toNat ≤ v.toNat := by
  rw [field_toNat]
  exact (Nat.mod_le _ _).trans (Nat.div_le_self _ _)

/-- A field used at the width of the operand word is still the field's number. -/
theorem field_setWidth_toNat (v : Word) (lo w : Nat) :
    ((v.extractLsb' lo w).setWidth 32).toNat = v.toNat / 2 ^ lo % 2 ^ w := by
  rw [BitVec.toNat_setWidth, Nat.mod_eq_of_lt (Nat.lt_of_le_of_lt (field_toNat_le v lo w) v.isLt), field_toNat]

/-- A field is a shift and a mask (R50). -/
theorem field_eq_shift_and_mask (v : Word) (lo w : Nat) {m : Word} (hm : m.toNat = 2 ^ w - 1) :
    (v.extractLsb' lo w).setWidth 32 = (v >>> lo) &&& m := by
  rw [← BitVec.toNat_inj, field_setWidth_toNat, BitVec.toNat_and, hm, Nat.and_two_pow_sub_one_eq_mod,
    BitVec.toNat_ushiftRight, Nat.shiftRight_eq_div_pow]

/-- The lowest field needs no shift (R50). -/
theorem low_field_eq_mask (v : Word) (w : Nat) {m : Word} (hm : m.toNat = 2 ^ w - 1) :
    (v.extractLsb' 0 w).setWidth 32 = v &&& m := by
  rw [field_eq_shift_and_mask v 0 w hm, BitVec.ushiftRight_zero]

/-- The mask on the top field may be dropped (R50). -/
theorem top_field_eq_shift {v : Word} {lo w : Nat} (h : v.toNat < 2 ^ (lo + w)) :
    (v.extractLsb' lo w).setWidth 32 = v >>> lo := by
  have : v.toNat / 2 ^ lo < 2 ^ w := Nat.div_lt_of_lt_mul (by rwa [← Nat.pow_add])
  rw [← BitVec.toNat_inj, field_setWidth_toNat, Nat.mod_eq_of_lt this, BitVec.toNat_ushiftRight,
    Nat.shiftRight_eq_div_pow]

/-- Two fields side by side are one field. -/
theorem field_append_field (v : Word) (lo n w : Nat) :
    v.extractLsb' (lo + n) w ++ v.extractLsb' lo n = v.extractLsb' lo (w + n) :=
  BitVec.extractLsb'_append_extractLsb'_eq_extractLsb' rfl

/-! ### Mask and match rows -/

/-- The end (exclusive) of the block of values that a row stands for, which begins at its match. A mask that tests the
bits from bit `k` on is `2 ^ 32 - 2 ^ k`, and leaves a block of `2 ^ k` values. -/
def SelectRow.blockEnd (r : SelectRow) : Nat := r.pattern.toNat + (2 ^ 32 - r.mask.toNat)

/-- The row stands for a block: for some `k` it tests the bits from bit `k` on, and its match is zero below them. -/
def SelectRow.isBlock (r : SelectRow) : Bool :=
  let k := (2 ^ 32 - r.mask.toNat).log2
  r.mask == BitVec.allOnes 32 <<< k && r.pattern.toNat % 2 ^ k == 0 && 2 ^ 32 - r.mask.toNat == 2 ^ k

/-- A row that stands for a block catches exactly the values of that block. -/
theorem SelectRow.catches_iff {r : SelectRow} (h : r.isBlock = true) (v : Word) :
    r.catches v = true ↔ r.pattern.toNat ≤ v.toNat ∧ v.toNat < r.blockEnd := by
  obtain ⟨k, hm, hp, hk⟩ :
      ∃ k, r.mask = BitVec.allOnes 32 <<< k ∧ r.pattern.toNat % 2 ^ k = 0 ∧ 2 ^ 32 - r.mask.toNat = 2 ^ k := by
    simp only [SelectRow.isBlock, Bool.and_eq_true, beq_iff_eq, and_assoc] at h
    exact ⟨_, h⟩
  have hv : (v &&& r.mask).toNat = v.toNat / 2 ^ k * 2 ^ k := by
    have := v.isLt
    have := Nat.div_mul_le_self v.toNat (2 ^ k)
    rw [hm, ← BitVec.shiftLeft_ushiftRight, BitVec.toNat_shiftLeft, BitVec.toNat_ushiftRight,
      Nat.shiftRight_eq_div_pow, Nat.shiftLeft_eq, Nat.mod_eq_of_lt (by omega)]
  have hpos := Nat.two_pow_pos k
  obtain ⟨q, hq⟩ := Nat.dvd_of_mod_eq_zero hp
  rw [SelectRow.catches, beq_iff_eq, ← BitVec.toNat_inj, hv, SelectRow.blockEnd, hk, hq, Nat.mul_comm (2 ^ k) q,
    Nat.mul_left_inj hpos.ne', Nat.div_eq_iff hpos]
  omega

/-- The row is next when the values below `lo` are dealt with: what it adds lies in the range of its form. -/
def SelectRow.isNext (r : SelectRow) (lo : Nat) : Bool :=
  r.isBlock && decide (r.form.least ≤ lo ∧ r.blockEnd ≤ r.form.greatest + 1)

theorem SelectRow.isNext_iff (r : SelectRow) (lo : Nat) :
    r.isNext lo = true ↔ r.isBlock = true ∧ r.form.least ≤ lo ∧ r.blockEnd ≤ r.form.greatest + 1 := by
  simp [SelectRow.isNext]

/-- A value that the next row adds has the form of that row. -/
theorem SelectRow.form_eq_of_isNext {r : SelectRow} {lo : Nat} (h : r.isNext lo = true) {v : Word}
    (hlo : lo ≤ v.toNat) (hend : v.toNat < r.blockEnd) : r.form = Form.of v := by
  obtain ⟨_, hleast, hgreatest⟩ := (r.isNext_iff lo).mp h
  exact ((Form.of_eq_iff v r.form).mpr (by omega)).symm

/-! ### The ordered rows -/

/-- Tried in order, the rows add one block of values after another, from `lo` to the end of the operand word; a row may
catch values again that a row before it took. -/
def coversFrom (lo : Nat) : List SelectRow → Bool
  | [] => lo == 2 ^ 32
  | r :: rs => r.isNext lo && decide (r.pattern.toNat ≤ lo) && coversFrom r.blockEnd rs

/-- The first of such rows that catches a value has the value's form. -/
theorem find?_catches {lo : Nat} {rs : List SelectRow} (h : coversFrom lo rs = true) {v : Word} (hv : lo ≤ v.toNat) :
    (rs.find? fun r => r.catches v).map SelectRow.form = some (Form.of v) := by
  induction rs generalizing lo with
  | nil =>
    rw [coversFrom, beq_iff_eq] at h
    omega
  | cons r rs ih =>
    obtain ⟨⟨hnext, hpat⟩, hrest⟩ : (r.isNext lo = true ∧ r.pattern.toNat ≤ lo) ∧ coversFrom r.blockEnd rs = true := by
      simpa [coversFrom] using h
    have hcatches := SelectRow.catches_iff ((r.isNext_iff lo).mp hnext).1 v
    by_cases hend : v.toNat < r.blockEnd
    · have hyes : r.catches v = true := hcatches.mpr (by omega)
      rw [List.find?_cons_of_pos (p := fun r : SelectRow => r.catches v) hyes, Option.map_some,
        SelectRow.form_eq_of_isNext hnext hv hend]
    · have hno : ¬ r.catches v = true := by rw [hcatches]; omega
      rw [List.find?_cons_of_neg (p := fun r : SelectRow => r.catches v) hno]
      exact ih hrest (by omega)

theorem coversFrom_selectTable : coversFrom 0 selectTable = true := by decide

/-! ### The disjoint rows -/

/-- The blocks of the rows follow one another without overlap, from `lo` to the end of the operand word. -/
def tilesFrom (lo : Nat) : List SelectRow → Bool
  | [] => lo == 2 ^ 32
  | r :: rs => r.isNext lo && r.pattern.toNat == lo && tilesFrom r.blockEnd rs

theorem tilesFrom_cons_iff (lo : Nat) (r : SelectRow) (rs : List SelectRow) :
    tilesFrom lo (r :: rs) = true ↔ r.isNext lo = true ∧ r.pattern.toNat = lo ∧ tilesFrom r.blockEnd rs = true := by
  simp [tilesFrom, and_assoc]

/-- Rows whose blocks follow one another catch no value before the first block. -/
theorem filter_catches_of_lt {lo : Nat} {rs : List SelectRow} (h : tilesFrom lo rs = true) {v : Word}
    (hv : v.toNat < lo) : (rs.filter fun r => r.catches v) = [] := by
  induction rs generalizing lo with
  | nil => rfl
  | cons r rs ih =>
    obtain ⟨hnext, hpat, hrest⟩ := (tilesFrom_cons_iff lo r rs).mp h
    have hno : ¬ r.catches v = true := by rw [SelectRow.catches_iff ((r.isNext_iff lo).mp hnext).1]; omega
    rw [List.filter_cons_of_neg (p := fun r : SelectRow => r.catches v) hno]
    exact ih hrest (hv.trans_le (hpat ▸ Nat.le_add_right _ _))

/-- Rows whose blocks follow one another catch every value from the first block on exactly once, in a row of its form. -/
theorem filter_catches_of_le {lo : Nat} {rs : List SelectRow} (h : tilesFrom lo rs = true) {v : Word}
    (hv : lo ≤ v.toNat) : (rs.filter fun r => r.catches v).map SelectRow.form = [Form.of v] := by
  induction rs generalizing lo with
  | nil =>
    rw [tilesFrom, beq_iff_eq] at h
    omega
  | cons r rs ih =>
    obtain ⟨hnext, hpat, hrest⟩ := (tilesFrom_cons_iff lo r rs).mp h
    have hcatches := SelectRow.catches_iff ((r.isNext_iff lo).mp hnext).1 v
    by_cases hend : v.toNat < r.blockEnd
    · have hyes : r.catches v = true := hcatches.mpr (by omega)
      rw [List.filter_cons_of_pos (p := fun r : SelectRow => r.catches v) hyes, filter_catches_of_lt hrest hend,
        List.map_singleton, SelectRow.form_eq_of_isNext hnext hv hend]
    · have hno : ¬ r.catches v = true := by rw [hcatches]; omega
      rw [List.filter_cons_of_neg (p := fun r : SelectRow => r.catches v) hno]
      exact ih hrest (by omega)

theorem tilesFrom_disjointPatterns : tilesFrom 0 disjointPatterns = true := by decide

end Sys2Proof
end

section
/-! PROOFS. The statements about selecting the form and cutting the fields: ranges (O1), masks (O2), fields (O3), the
rejected space (O7) and the valid range (O8). -/

namespace Sys2Proof.Machine

/-- Words of which a predicate holds are counted by their numbers. -/
theorem natCard_bitVec_eq {n : Nat} {p : BitVec n → Prop} {S : Finset Nat} (hS : ∀ k ∈ S, k < 2 ^ n)
    (hp : ∀ x : BitVec n, p x ↔ x.toNat ∈ S) : Nat.card { x : BitVec n // p x } = S.card := by
  have himage : BitVec.toNat '' { x : BitVec n | p x } = S := by
    ext k
    constructor
    · rintro ⟨x, hx, rfl⟩
      exact (hp x).mp hx
    · intro hk
      have hk' : (BitVec.ofNat n k).toNat = k := by rw [BitVec.toNat_ofNat, Nat.mod_eq_of_lt (hS k hk)]
      exact ⟨BitVec.ofNat n k, (hp _).mpr (by rwa [hk']), hk'⟩
  have hinj : Function.Injective (BitVec.toNat (w := n)) := fun _ _ => BitVec.eq_of_toNat_eq
  refine (Nat.card_coe_set_eq { x : BitVec n | p x }).trans ?_
  rw [← Set.ncard_image_of_injective _ hinj, himage, Set.ncard_coe_finset]

theorem natCard_form (f : Form) : Nat.card { v : Word // Form.of v = f } = f.greatest + 1 - f.least := by
  have hmax : f.greatest < 2 ^ 32 := by cases f <;> decide
  rw [natCard_bitVec_eq (S := Finset.Icc f.least f.greatest), Nat.card_Icc]
  · intro k hk
    exact (Finset.mem_Icc.mp hk).2.trans_lt hmax
  · intro v
    rw [Form.of_eq_iff, Finset.mem_Icc]

/-- Settles O1: a form's values are exactly its range (`Form.of_eq_iff`), which also counts them. -/
theorem formIsSelectedByRange : Obligations.FormIsSelectedByRange := by
  refine ⟨fun v => ⟨?_, Form.of_eq_iff v .enc2, Form.of_eq_iff v .enc3, Form.of_eq_iff v .enc4, ?_, ?_, ?_⟩,
    natCard_form .enc1, natCard_form .enc2, natCard_form .enc3, natCard_form .enc4, natCard_form .encRej⟩
  · simpa [Form.least, Form.greatest] using Form.of_eq_iff v .enc1
  · have := v.isLt
    simp only [Form.of_eq_iff, Form.least, Form.greatest]
    omega
  · rw [decode_form]
    rfl
  · rw [lenOf_eq]
    cases (decode v).form <;> rfl

/-- Settles O2: the ordered rows add one block of values after another (`find?_catches`), the disjoint rows tile the
operand words (`filter_catches_of_le`), and each bit condition is the form's range, read off the value's number. -/
theorem maskAndMatchSelectTheSameForm : Obligations.MaskAndMatchSelectTheSameForm := by
  refine ⟨rfl, fun v => ⟨find?_catches coversFrom_selectTable v.toNat.zero_le, ?_, ?_, ?_, ?_, ?_,
    filter_catches_of_le tilesFrom_disjointPatterns v.toNat.zero_le⟩⟩
  all_goals
    have := v.isLt
    simp only [Form.of_eq_iff, Form.least, Form.greatest, ne_eq, field_eq_zero_iff, field_toNat]
    omega

/-- Settles O3: each field is the bit range of its form, so a shift and a mask; the range of the form bounds the
value, so the bits above are zero and the top field needs no mask. -/
theorem fieldsAreShiftsAndMasks : Obligations.FieldsAreShiftsAndMasks := by
  refine ⟨fun v a h => ?_, fun v a b h => ?_, fun v a b c h => ?_, fun v a b c d h => ?_, fun v w x s hv hw => ?_⟩
  · have hlt : v.toNat < 2 ^ 7 := Nat.lt_succ_of_le ((Form.of_eq_iff v .enc1).mp (form_of_decode_eq h)).2
    obtain rfl := decode_eq_enc1 h
    exact ⟨rfl, low_field_eq_mask v 7 rfl, high_bits_eq_zero 25 hlt, (BitVec.setWidth_eq_extractLsb' (by decide)).symm⟩
  · have hlt : v.toNat < 2 ^ 11 := Nat.lt_succ_of_le ((Form.of_eq_iff v .enc2).mp (form_of_decode_eq h)).2
    obtain ⟨rfl, rfl⟩ := decode_eq_enc2 h
    refine ⟨rfl, field_eq_shift_and_mask v 6 5 rfl, top_field_eq_shift hlt, rfl, low_field_eq_mask v 6 rfl,
      high_bits_eq_zero 21 hlt, ?_⟩
    rw [BitVec.setWidth_eq_extractLsb' (by decide), field_append_field v 0 6 5]
  · have hlt : v.toNat < 2 ^ 16 := Nat.lt_succ_of_le ((Form.of_eq_iff v .enc3).mp (form_of_decode_eq h)).2
    obtain ⟨rfl, rfl, rfl⟩ := decode_eq_enc3 h
    refine ⟨rfl, field_eq_shift_and_mask v 12 4 rfl, top_field_eq_shift hlt, rfl, field_eq_shift_and_mask v 6 6 rfl,
      rfl, low_field_eq_mask v 6 rfl, high_bits_eq_zero 16 hlt, ?_⟩
    rw [BitVec.setWidth_eq_extractLsb' (by decide), field_append_field v 6 6 4, field_append_field v 0 6 10]
  · have hlt : v.toNat < 2 ^ 21 :=
      ((Form.of_eq_iff v .enc4).mp (form_of_decode_eq h)).2.trans_lt (by decide)
    obtain ⟨rfl, rfl, rfl, rfl⟩ := decode_eq_enc4 h
    refine ⟨rfl, field_eq_shift_and_mask v 18 3 rfl, top_field_eq_shift hlt, rfl, field_eq_shift_and_mask v 12 6 rfl,
      rfl, field_eq_shift_and_mask v 6 6 rfl, rfl, low_field_eq_mask v 6 rfl, high_bits_eq_zero 11 hlt, ?_⟩
    rw [BitVec.setWidth_eq_extractLsb' (by decide), field_append_field v 12 6 3, field_append_field v 6 6 9,
      field_append_field v 0 6 15]
  · rw [hv, decode, hw]
    rfl

/-- Settles O7: the range of `ENCREJ` is everything from 0x110000 on, and every operation answers a next state with
the length of its value (`exec_decode`). -/
theorem rejectedSpaceIsEverythingAboveTheLimit : Obligations.RejectedSpaceIsEverythingAboveTheLimit := by
  intro v s
  obtain ⟨t, e, hlens, _⟩ := exec_decode v s
  refine ⟨Form.of_encRej, fun h _ => Form.of_encRej h, fun h => Form.of_encRej ?_, fun h => ⟨?_, t, e, ?_⟩, t, e⟩
  · rw [ne_eq, field_eq_zero_iff] at h
    omega
  · exact ((Form.of_eq_iff v .encRej).mp h).1
  · rw [hlens, lenOf, h]
    rfl

/-- Settles O8: the case analysis of a value (`bytesOf_cases`) has no valid value without bytes and one layout for the
whole 3-byte range. -/
theorem noValueInRangeIsExcluded : Obligations.NoValueInRangeIsExcluded := by
  refine ⟨fun v h => ?_, fun v hl hg => ?_, by decide⟩
  · rcases bytesOf_cases v with ⟨_, l, b⟩ | ⟨_, _, l, b⟩ | ⟨_, _, l, b⟩ | ⟨_, _, l, b⟩ | ⟨hv, _⟩
    case inr.inr.inr.inr => omega
    all_goals exact ⟨by rw [l]; decide, by rw [b]; exact List.cons_ne_nil _ _⟩
  · have f := Form.of_enc3 hl hg
    exact ⟨by rw [lenOf, f]; rfl, by rw [bytesOf, decode, f]; rfl⟩

end Sys2Proof.Machine
end

section
/-! PROOFS. Facts about the bytes: the range of each byte format (R51 to R55), the leading one bits of a byte (R57), and
that the values and the well-formed instructions produce the same bytes. -/

namespace Sys2Proof

/-! ### Values and well-formed instructions -/

theorem Form.of_ne_encRej_iff (v : Word) : Form.of v ≠ .encRej ↔ v.toNat ≤ 1114111 := by
  have := v.isLt
  simp only [ne_eq, Form.of_eq_iff, Form.least, Form.greatest]
  omega

theorem wf_decode (v : Word) : (decode v).wf = true := by
  obtain ⟨_, _, _, m4⟩ := Config.max_values
  rcases decode_cases v with ⟨_, _, d⟩ | ⟨_, _, _, d⟩ | ⟨_, _, _, d⟩ | ⟨_, _, _, d⟩ | ⟨_, _, d⟩ <;> rw [d]
  · rfl
  all_goals
    simp only [Instr.wf, decide_eq_true_eq, field_toNat]
    omega

theorem form_of_encodeWord {i : Instr} (h : i.wf = true) : Form.of (encodeWord i) = i.form := by
  cases i with
  | enc1 a => exact Laws.WordForm.enc1 a h
  | enc2 a b => exact Laws.WordForm.enc2 a b h
  | enc3 a b c => exact Laws.WordForm.enc3 a b c h
  | enc4 a b c d => exact Laws.WordForm.enc4 a b c d h
  | encRej value => exact Laws.WordForm.encRej value h

theorem decode_encodeWord {i : Instr} (h : i.wf = true) : decode (encodeWord i) = i := by
  rw [decode, form_of_encodeWord h]
  cases i with
  | enc1 a =>
    have e : (encodeWord (.enc1 a)).toNat = a.toNat := by
      simp only [encodeWord, append_toNat]; simp
    simp only [Instr.form, Instr.enc1.injEq, ← BitVec.toNat_inj, field_toNat, e]
    omega
  | enc2 a b =>
    have e : (encodeWord (.enc2 a b)).toNat = a.toNat * 64 + b.toNat := by
      simp only [encodeWord, append_toNat]; simp
    simp only [Instr.form, Instr.enc2.injEq, ← BitVec.toNat_inj, field_toNat, e]
    omega
  | enc3 a b c =>
    have e : (encodeWord (.enc3 a b c)).toNat = (a.toNat * 64 + b.toNat) * 64 + c.toNat := by
      simp only [encodeWord, append_toNat]; simp
    simp only [Instr.form, Instr.enc3.injEq, ← BitVec.toNat_inj, field_toNat, e]
    omega
  | enc4 a b c d =>
    have e : (encodeWord (.enc4 a b c d)).toNat = ((a.toNat * 64 + b.toNat) * 64 + c.toNat) * 64 + d.toNat := by
      simp only [encodeWord, append_toNat]; simp
    simp only [Instr.form, Instr.enc4.injEq, ← BitVec.toNat_inj, field_toNat, e]
    omega
  | encRej value => rfl

/-- What some value decodes to are exactly the well-formed instructions. -/
theorem exists_value_iff_exists_wf (P : Instr → Prop) : (∃ v, P (decode v)) ↔ ∃ i : Instr, i.wf = true ∧ P i := by
  constructor
  · rintro ⟨v, hv⟩
    exact ⟨decode v, wf_decode v, hv⟩
  · rintro ⟨i, hwf, hi⟩
    exact ⟨encodeWord i, by rwa [decode_encodeWord hwf]⟩

namespace Machine

/-! ### The byte formats -/

/-- A tag above a payload is the OR of the two at the width of the byte. -/
theorem tag_append_eq_or {m n : Nat} (t : BitVec m) (p : BitVec n) : t ++ p = (t ++ 0#n) ||| p.setWidth (m + n) := by
  refine BitVec.eq_of_getLsbD_eq fun i hi => ?_
  rw [BitVec.getLsbD_or, BitVec.getLsbD_append, BitVec.getLsbD_append, BitVec.getLsbD_setWidth]
  by_cases h : i < n
  · simp [h, hi]
  · simp [h, BitVec.getLsbD_of_ge p i (Nat.le_of_not_lt h)]

/-- The bytes of a format whose payload has `n` bits are the `2 ^ n` bytes from its tag on. -/
theorem exists_payload_iff {n base : Nat} {f : BitVec n → Byte} (hf : ∀ a, (f a).toNat = base + a.toNat) (b : Byte) :
    (∃ a, f a = b) ↔ base ≤ b.toNat ∧ b.toNat ≤ base + (2 ^ n - 1) := by
  have hpos := Nat.two_pow_pos n
  constructor
  · rintro ⟨a, rfl⟩
    have := a.isLt
    rw [hf]
    omega
  · intro h
    refine ⟨BitVec.ofNat n (b.toNat - base), BitVec.eq_of_toNat_eq ?_⟩
    rw [hf, BitVec.toNat_ofNat, Nat.mod_eq_of_lt (by omega)]
    omega

theorem exists_lead1_iff (b : Byte) : (∃ a, lead1 a = b) ↔ b.toNat ≤ 0x7F := by
  rw [exists_payload_iff (base := 0) (fun a => by rw [lead1_toNat, Nat.zero_add])]
  simp

theorem exists_lead2_iff (b : Byte) : (∃ a, lead2 a = b) ↔ 0xC0 ≤ b.toNat ∧ b.toNat ≤ 0xDF :=
  exists_payload_iff lead2_toNat b

theorem exists_lead3_iff (b : Byte) : (∃ a, lead3 a = b) ↔ 0xE0 ≤ b.toNat ∧ b.toNat ≤ 0xEF :=
  exists_payload_iff lead3_toNat b

theorem exists_lead4_iff (b : Byte) : (∃ a, lead4 a = b) ↔ 0xF0 ≤ b.toNat ∧ b.toNat ≤ 0xF7 :=
  exists_payload_iff lead4_toNat b

theorem exists_cont_iff (b : Byte) : (∃ p, cont p = b) ↔ 0x80 ≤ b.toNat ∧ b.toNat ≤ 0xBF :=
  exists_payload_iff cont_toNat b

/-! ### The leading one bits of a byte -/

open Safety

theorem getLsbD_eq_decide (b : Byte) (k : Nat) : b.getLsbD k = decide (b.toNat / 2 ^ k % 2 = 1) :=
  Nat.testBit_eq_decide_div_mod_eq

/-- The one case analysis over a byte, along its bits from bit 7 down: its range and its number of leading ones. -/
theorem leadingOnes_cases (b : Byte) :
    (b.toNat ≤ 0x7F ∧ leadingOnes b = 0) ∨
    (0x80 ≤ b.toNat ∧ b.toNat ≤ 0xBF ∧ leadingOnes b = 1) ∨
    (0xC0 ≤ b.toNat ∧ b.toNat ≤ 0xDF ∧ leadingOnes b = 2) ∨
    (0xE0 ≤ b.toNat ∧ b.toNat ≤ 0xEF ∧ leadingOnes b = 3) ∨
    (0xF0 ≤ b.toNat ∧ b.toNat ≤ 0xF7 ∧ leadingOnes b = 4) ∨
    (0xF8 ≤ b.toNat ∧ 5 ≤ leadingOnes b) := by
  simp only [leadingOnes, leadingOnesBelow, getLsbD_eq_decide, decide_eq_true_eq]
  split_ifs <;> omega

theorem leadingOnes_lead1 (a : BitVec 7) : leadingOnes (lead1 a) = 0 := by
  have := leadingOnes_cases (lead1 a)
  rw [lead1_toNat] at this
  omega

theorem leadingOnes_lead2 (a : BitVec 5) : leadingOnes (lead2 a) = 2 := by
  have := leadingOnes_cases (lead2 a)
  rw [lead2_toNat] at this
  omega

theorem leadingOnes_lead3 (a : BitVec 4) : leadingOnes (lead3 a) = 3 := by
  have := leadingOnes_cases (lead3 a)
  rw [lead3_toNat] at this
  omega

theorem leadingOnes_lead4 (a : BitVec 3) : leadingOnes (lead4 a) = 4 := by
  have := leadingOnes_cases (lead4 a)
  rw [lead4_toNat] at this
  omega

/-! ### The first byte and the further bytes of a form -/

/-- The instruction of a value says its length and its bytes. -/
theorem lenOf_and_bytesOf_of_decode_eq {v : Word} {i : Instr} (h : decode v = i) :
    lenOf v = lenOfForm i.form ∧ bytesOf v = bytesOfInstr i := by
  rw [lenOf_eq, bytesOf, h]
  exact ⟨rfl, rfl⟩

theorem bytesOf_encodeWord {i : Instr} (h : i.wf = true) : bytesOf (encodeWord i) = bytesOfInstr i := by
  rw [bytesOf, decode_encodeWord h]

/-- The length can be read off the leading ones of the first byte (R56). -/
theorem leadingOnes_first_byte {v : Word} {b : Byte} (h : (bytesOf v)[0]? = some b) :
    (leadingOnes b = 0 ∧ lenOf v = 1) ∨ (2 ≤ leadingOnes b ∧ leadingOnes b = (lenOf v : Nat)) := by
  rcases bytesOf_cases v with ⟨_, l, e⟩ | ⟨_, _, l, e⟩ | ⟨_, _, l, e⟩ | ⟨_, _, l, e⟩ | ⟨_, _, e⟩ <;> rw [e] at h
  · obtain rfl : lead1 _ = b := Option.some.inj h
    exact .inl ⟨leadingOnes_lead1 _, l⟩
  · obtain rfl : lead2 _ = b := Option.some.inj h
    exact .inr (by rw [leadingOnes_lead2, l]; decide)
  · obtain rfl : lead3 _ = b := Option.some.inj h
    exact .inr (by rw [leadingOnes_lead3, l]; decide)
  · obtain rfl : lead4 _ = b := Option.some.inj h
    exact .inr (by rw [leadingOnes_lead4, l]; decide)
  · cases h

/-- Every byte after the first has format `CONT` (R55, R56). -/
theorem exists_cont_of_later_byte {v : Word} {k : Nat} {b : Byte} (hk : 1 ≤ k) (h : (bytesOf v)[k]? = some b) :
    ∃ p, cont p = b := by
  have hmem : b ∈ (bytesOf v).tail := by
    obtain ⟨j, rfl⟩ := Nat.exists_eq_add_of_le' hk
    exact List.mem_of_getElem? (by rwa [List.getElem?_tail])
  rcases bytesOf_cases v with ⟨_, _, e⟩ | ⟨_, _, _, e⟩ | ⟨_, _, _, e⟩ | ⟨_, _, _, e⟩ | ⟨_, _, e⟩ <;>
    rw [e] at hmem <;>
    simp only [List.tail_cons, List.tail_nil, List.mem_cons, List.not_mem_nil, or_false] at hmem
  · exact ⟨_, hmem.symm⟩
  · rcases hmem with rfl | rfl <;> exact ⟨_, rfl⟩
  · rcases hmem with rfl | rfl | rfl <;> exact ⟨_, rfl⟩

/-- The first bytes that the block produces are those of its well-formed instructions. -/
theorem exists_first_byte_iff (n : Len) (b : Byte) :
    (∃ v, lenOf v = n ∧ (bytesOf v)[0]? = some b) ↔
      ∃ i : Instr, i.wf = true ∧ lenOfForm i.form = n ∧ (bytesOfInstr i)[0]? = some b := by
  simp only [lenOf_eq]
  exact exists_value_iff_exists_wf fun i => lenOfForm i.form = n ∧ (bytesOfInstr i)[0]? = some b

theorem exists_first_byte_len1_iff (b : Byte) : (∃ v, lenOf v = 1 ∧ (bytesOf v)[0]? = some b) ↔ b.toNat ≤ 0x7F := by
  rw [exists_first_byte_iff]
  constructor
  · rintro ⟨i, -, hlen, hb⟩
    cases i <;> cases hlen
    exact (exists_lead1_iff b).mp ⟨_, Option.some.inj hb⟩
  · intro h
    obtain ⟨a, rfl⟩ := (exists_lead1_iff b).mpr h
    exact ⟨.enc1 a, rfl, rfl, rfl⟩

theorem exists_first_byte_len2_iff (b : Byte) :
    (∃ v, lenOf v = 2 ∧ (bytesOf v)[0]? = some b) ↔ 0xC2 ≤ b.toNat ∧ b.toNat ≤ 0xDF := by
  rw [exists_first_byte_iff]
  constructor
  · rintro ⟨i, hwf, hlen, hb⟩
    cases i <;> cases hlen
    cases hb
    simp only [Instr.wf, decide_eq_true_eq] at hwf
    rw [lead2_toNat]
    omega
  · intro h
    obtain ⟨a, rfl⟩ := (exists_lead2_iff b).mpr (by omega)
    rw [lead2_toNat] at h
    exact ⟨.enc2 a 0, decide_eq_true (by omega), rfl, rfl⟩

theorem exists_first_byte_len3_iff (b : Byte) :
    (∃ v, lenOf v = 3 ∧ (bytesOf v)[0]? = some b) ↔ 0xE0 ≤ b.toNat ∧ b.toNat ≤ 0xEF := by
  rw [exists_first_byte_iff]
  constructor
  · rintro ⟨i, -, hlen, hb⟩
    cases i <;> cases hlen
    exact (exists_lead3_iff b).mp ⟨_, Option.some.inj hb⟩
  · intro h
    obtain ⟨a, rfl⟩ := (exists_lead3_iff b).mpr h
    exact ⟨.enc3 a 0x20 0, decide_eq_true (.inr (by decide)), rfl, rfl⟩

/-- The payload of the first byte is 0 to 4; where it is 0 the second one is at least 0x10, where it is 4 at most 0x0F. -/
theorem exists_first_byte_len4_iff (b : Byte) :
    (∃ v, lenOf v = 4 ∧ (bytesOf v)[0]? = some b) ↔ 0xF0 ≤ b.toNat ∧ b.toNat ≤ 0xF4 := by
  rw [exists_first_byte_iff]
  constructor
  · rintro ⟨i, hwf, hlen, hb⟩
    cases i <;> cases hlen
    cases hb
    simp only [Instr.wf, decide_eq_true_eq] at hwf
    rw [lead4_toNat]
    omega
  · intro h
    obtain ⟨a, rfl⟩ := (exists_lead4_iff b).mpr (by omega)
    rw [lead4_toNat] at h
    by_cases ha : a.toNat = 0
    · exact ⟨.enc4 a 0x10 0 0, decide_eq_true ⟨.inr (by decide), by omega⟩, rfl, rfl⟩
    · exact ⟨.enc4 a 0 0 0, decide_eq_true ⟨by omega, by simp; omega⟩, rfl, rfl⟩

/-- At each later position the block produces all bytes of format `CONT` (R55). -/
theorem exists_later_byte_iff {k : Nat} (hk : 1 ≤ k) (hk' : k ≤ 3) (b : Byte) :
    (∃ v, (bytesOf v)[k]? = some b) ↔ 0x80 ≤ b.toNat ∧ b.toNat ≤ 0xBF := by
  rw [← exists_cont_iff]
  refine ⟨fun ⟨v, h⟩ => exists_cont_of_later_byte hk h, ?_⟩
  rintro ⟨p, rfl⟩
  have hwf : (Instr.enc4 1 p p p).wf = true := by simp [Instr.wf]
  refine ⟨encodeWord (.enc4 1 p p p), ?_⟩
  rw [bytesOf_encodeWord hwf]
  obtain rfl | rfl | rfl : k = 1 ∨ k = 2 ∨ k = 3 := by omega
  all_goals rfl

/-- The bytes that occur in some output (R60): those that occur first in a form of some length, and those that occur
later. -/
theorem exists_mem_bytesOf_iff (b : Byte) :
    (∃ v, b ∈ bytesOf v) ↔ ¬ (b.toNat = 0xC0 ∨ b.toNat = 0xC1 ∨ 0xF5 ≤ b.toNat) := by
  have hfirst1 := exists_first_byte_len1_iff b
  have hfirst2 := exists_first_byte_len2_iff b
  have hfirst3 := exists_first_byte_len3_iff b
  have hfirst4 := exists_first_byte_len4_iff b
  have hlater := exists_later_byte_iff (k := 1) le_rfl (by decide) b
  constructor
  · rintro ⟨v, hmem⟩
    obtain ⟨k, hk⟩ := List.mem_iff_getElem?.mp hmem
    obtain rfl | hpos := Nat.eq_zero_or_pos k
    · rcases bytesOf_cases v with ⟨_, l, _⟩ | ⟨_, _, l, _⟩ | ⟨_, _, l, _⟩ | ⟨_, _, l, _⟩ | ⟨_, _, e⟩
      · have := hfirst1.mp ⟨v, l, hk⟩
        omega
      · have := hfirst2.mp ⟨v, l, hk⟩
        omega
      · have := hfirst3.mp ⟨v, l, hk⟩
        omega
      · have := hfirst4.mp ⟨v, l, hk⟩
        omega
      · rw [e] at hmem
        cases hmem
    · have := (exists_cont_iff b).mp (exists_cont_of_later_byte hpos hk)
      omega
  · intro h
    have hfirst {n : Len} : (∃ v, lenOf v = n ∧ (bytesOf v)[0]? = some b) → ∃ v, b ∈ bytesOf v :=
      fun ⟨v, _, hv⟩ => ⟨v, List.mem_of_getElem? hv⟩
    by_cases h1 : b.toNat ≤ 0x7F
    · exact hfirst (hfirst1.mpr h1)
    by_cases h2 : b.toNat ≤ 0xBF
    · obtain ⟨v, hv⟩ := hlater.mpr ⟨by omega, h2⟩
      exact ⟨v, List.mem_of_getElem? hv⟩
    by_cases h3 : b.toNat ≤ 0xDF
    · exact hfirst (hfirst2.mpr (by omega))
    by_cases h4 : b.toNat ≤ 0xEF
    · exact hfirst (hfirst3.mpr (by omega))
    · exact hfirst (hfirst4.mpr (by omega))

/-! ### The produced sequences -/

theorem isCont_iff (b : Byte) : isCont b = true ↔ 0x80 ≤ b.toNat ∧ b.toNat ≤ 0xBF := by
  have := b.isLt
  rw [isCont, beq_iff_eq, ← BitVec.toNat_inj, BitVec.extractLsb'_toNat, Nat.shiftRight_eq_div_pow]
  change b.toNat / 2 ^ 6 % 2 ^ 2 = 2 ↔ _
  omega

theorem isCont_cont (p : BitVec 6) : isCont (cont p) = true := (isCont_iff _).mpr ((exists_cont_iff _).mp ⟨p, rfl⟩)

theorem exists_cont_of_isCont {b : Byte} (h : isCont b = true) : ∃ p, cont p = b :=
  (exists_cont_iff b).mpr ((isCont_iff b).mp h)

/-- What R60 says of the produced sequences holds of the bytes of every well-formed instruction that encodes. -/
theorem legalSequence_bytesOfInstr {i : Instr} (hwf : i.wf = true) (hform : i.form ≠ .encRej) :
    legalSequence (bytesOfInstr i) = true := by
  cases i with
  | enc1 a =>
    simp only [bytesOfInstr, enc1Bytes, legalSequence, lead1_toNat, decide_eq_true_eq]
    omega
  | enc2 a b =>
    simp only [Instr.wf, decide_eq_true_eq] at hwf
    simp only [bytesOfInstr, enc2Bytes, legalSequence, isCont_cont, lead2_toNat, Bool.and_true, decide_eq_true_eq]
    omega
  | enc3 a b c =>
    simp only [Instr.wf, decide_eq_true_eq] at hwf
    simp only [bytesOfInstr, enc3Bytes, legalSequence, isCont_cont, lead3_toNat, cont_toNat, Bool.and_true,
      Bool.and_eq_true, decide_eq_true_eq]
    omega
  | enc4 a b c d =>
    simp only [Instr.wf, decide_eq_true_eq] at hwf
    simp only [bytesOfInstr, enc4Bytes, legalSequence, isCont_cont, lead4_toNat, cont_toNat, Bool.and_true,
      Bool.and_eq_true, decide_eq_true_eq]
    omega
  | encRej value => exact absurd rfl hform

/-- Every sequence that R60 leaves is that of a well-formed instruction that encodes: the lead byte gives its format,
and what R60 asks of the second byte is what the form asks of its fields. -/
theorem exists_wf_of_legalSequence {B : List Byte} (h : legalSequence B = true) :
    ∃ i : Instr, i.wf = true ∧ i.form ≠ .encRej ∧ bytesOfInstr i = B := by
  match B with
  | [] => cases h
  | [b0] =>
    obtain ⟨a, rfl⟩ := (exists_lead1_iff b0).mpr (of_decide_eq_true h)
    exact ⟨.enc1 a, rfl, nofun, rfl⟩
  | [b0, b1] =>
    simp only [legalSequence, Bool.and_eq_true, decide_eq_true_eq] at h
    obtain ⟨⟨hl, hg⟩, h1⟩ := h
    obtain ⟨a, rfl⟩ := (exists_lead2_iff b0).mpr (by omega)
    obtain ⟨b, rfl⟩ := exists_cont_of_isCont h1
    rw [lead2_toNat] at hl
    exact ⟨.enc2 a b, decide_eq_true (by omega), nofun, rfl⟩
  | [b0, b1, b2] =>
    simp only [legalSequence, Bool.and_eq_true, decide_eq_true_eq] at h
    obtain ⟨⟨⟨hlead, h1⟩, h2⟩, hsecond⟩ := h
    obtain ⟨a, rfl⟩ := (exists_lead3_iff b0).mpr hlead
    obtain ⟨b, rfl⟩ := exists_cont_of_isCont h1
    obtain ⟨c, rfl⟩ := exists_cont_of_isCont h2
    rw [lead3_toNat, cont_toNat] at hsecond
    exact ⟨.enc3 a b c, decide_eq_true (by omega), nofun, rfl⟩
  | [b0, b1, b2, b3] =>
    simp only [legalSequence, Bool.and_eq_true, decide_eq_true_eq] at h
    obtain ⟨⟨⟨⟨⟨⟨hl, hg⟩, h1⟩, h2⟩, h3⟩, hfirst⟩, hlast⟩ := h
    obtain ⟨a, rfl⟩ := (exists_lead4_iff b0).mpr (by omega)
    obtain ⟨b, rfl⟩ := exists_cont_of_isCont h1
    obtain ⟨c, rfl⟩ := exists_cont_of_isCont h2
    obtain ⟨d, rfl⟩ := exists_cont_of_isCont h3
    rw [lead4_toNat, cont_toNat] at hfirst hlast
    rw [lead4_toNat] at hg
    exact ⟨.enc4 a b c d, decide_eq_true (by omega), nofun, rfl⟩
  | b0 :: b1 :: b2 :: b3 :: b4 :: bs => cases h

end Machine

end Sys2Proof
end

section
/-! PROOFS. The statements about the bytes: formats (O9), layout (O10), leading ones (O11), produced sequences (O12). -/

namespace Sys2Proof.Machine

open Safety

/-- Settles O9: a format is its tag laid above its payload, and what the block produces in it is what its well-formed
instructions write. -/
theorem byteFormatsAndTheirRanges : Obligations.ByteFormatsAndTheirRanges := by
  refine ⟨fun a => ⟨BitVec.extractLsb'_append_eq_left, BitVec.extractLsb'_append_eq_right, ?_⟩,
    fun a => ⟨BitVec.extractLsb'_append_eq_left, BitVec.extractLsb'_append_eq_right, tag_append_eq_or 0b110#3 a⟩,
    fun a => ⟨BitVec.extractLsb'_append_eq_left, BitVec.extractLsb'_append_eq_right, tag_append_eq_or 0b1110#4 a⟩,
    fun a => ⟨BitVec.extractLsb'_append_eq_left, BitVec.extractLsb'_append_eq_right, tag_append_eq_or 0b11110#5 a⟩,
    fun p => ⟨BitVec.extractLsb'_append_eq_left, BitVec.extractLsb'_append_eq_right, tag_append_eq_or 0b10#2 p⟩,
    fun b => ⟨exists_lead1_iff b, exists_lead2_iff b, exists_lead3_iff b, exists_lead4_iff b, exists_cont_iff b,
      exists_first_byte_len1_iff b, exists_first_byte_len2_iff b, exists_first_byte_len3_iff b,
      exists_first_byte_len4_iff b, fun _ hk hk' => exists_later_byte_iff hk hk' b⟩⟩
  exact (tag_append_eq_or 0b0#1 a).trans BitVec.zero_or

/-- Settles O10: length and bytes are those of the decoded instruction, and the first byte tells the length. -/
theorem encodedFormLayout : Obligations.EncodedFormLayout := by
  intro v
  refine ⟨fun a => lenOf_and_bytesOf_of_decode_eq, fun a b => lenOf_and_bytesOf_of_decode_eq,
    fun a b c => lenOf_and_bytesOf_of_decode_eq, fun a b c d => lenOf_and_bytesOf_of_decode_eq,
    fun x => lenOf_and_bytesOf_of_decode_eq, fun b h => ?_⟩
  rcases leadingOnes_first_byte h with ⟨hones, hlen⟩ | ⟨hones, hlen⟩
  · rw [if_pos hlen, hones]
  · have hne : lenOf v ≠ 1 := by
      intro hone
      rw [hlen, hone] at hones
      exact absurd hones (by decide)
    rw [if_neg hne, hlen]

/-- Settles O11: the ranges of the formats and of the numbers of leading ones are the same, and the first byte of a form
is a lead byte, each later one of format `CONT`. -/
theorem leadingOnesTellTheByteKinds : Obligations.LeadingOnesTellTheByteKinds := by
  refine ⟨fun b => ?_, fun v k b h => ?_⟩
  · have := leadingOnes_cases b
    rw [exists_lead1_iff, exists_lead2_iff, exists_lead3_iff, exists_lead4_iff, exists_cont_iff]
    omega
  · have hlater (hk : 1 ≤ k) : leadingOnes b = 1 := by
      have hrange := (exists_cont_iff b).mp (exists_cont_of_later_byte hk h)
      have := leadingOnes_cases b
      omega
    obtain rfl | hk := Nat.eq_zero_or_pos k
    · have := (lenOf v).isLt
      have hfirst := leadingOnes_first_byte h
      exact ⟨by omega, fun _ => hfirst, hlater⟩
    · have := hlater hk
      exact ⟨by omega, by omega, hlater⟩

/-- Settles O12: the produced sequences are those of the well-formed instructions, so those that R60 leaves; a byte
occurs in one exactly when it occurs first in one of some length, or later. -/
theorem producedSequencesAreExactlyTheLegalOnes : Obligations.ProducedSequencesAreExactlyTheLegalOnes := by
  refine ⟨fun B => ⟨?_, fun h => ?_⟩, fun b => ?_, ?_⟩
  · rintro ⟨v, hv, rfl⟩
    refine legalSequence_bytesOfInstr (wf_decode v) ?_
    rwa [decode_form, Form.of_ne_encRej_iff]
  · obtain ⟨i, hwf, hform, rfl⟩ := exists_wf_of_legalSequence h
    refine ⟨encodeWord i, ?_, bytesOf_encodeWord hwf⟩
    rwa [← Form.of_ne_encRej_iff, form_of_encodeWord hwf]
  · rw [exists_mem_bytesOf_iff, ← BitVec.toNat_inj, ← BitVec.toNat_inj]
    rfl
  · rw [natCard_bitVec_eq (S := (Finset.range 0xF5).erase 0xC0 |>.erase 0xC1)]
    · rfl
    · intro k hk
      simp only [Finset.mem_erase, Finset.mem_range] at hk
      omega
    · intro b
      rw [exists_mem_bytesOf_iff]
      simp only [Finset.mem_erase, Finset.mem_range]
      omega

end Sys2Proof.Machine
end

section
/-! PROOFS. Facts about one operation and its bytes: what an encoding form leaves behind when no lane is drawn, that the
record of results has no influence on an operation, and each byte format as an OR at the width of the operand word. -/

namespace Sys2Proof.Machine

/-! ### One operation -/

/-- An encoding form whose trailing lanes are not drawn, because the policy leaves them or because there are none: it
writes its bytes, returns its length, and changes nothing else. -/
theorem exec_of_form_ne_encRej {i : Instr} {s : State} (hform : i.form ≠ .encRej)
    (hlanes : s.trailPolicy = .untouched ∨ lenOfForm i.form = 4) :
    ∃ t, exec i s = .next t ∧ (∀ k, t.byte k = ((bytesOfInstr i)[k]?).getD (s.byte k)) ∧
      (∀ k, (lenOfForm i.form : Nat) ≤ k → s.keeps t k) ∧ t.lens = s.lens ++ [lenOfForm i.form] ∧
      s.sameSetting t ∧ t.draws = s.draws := by
  have hnodraw (k : Nat) : ¬ (s.trailPolicy = .havoc ∧ (lenOfForm i.form : Nat) ≤ k ∧ k < 4) := by
    rintro ⟨hhavoc, hlow, hhigh⟩
    rcases hlanes with huntouched | hfour
    · rw [huntouched] at hhavoc
      cases hhavoc
    · rw [hfour] at hlow
      exact absurd hhigh (Nat.not_lt.2 hlow)
  have e : exec i s = .next (s.complete (lenOfForm i.form) (bytesOfInstr i)) := by
    rcases exec_cases i s with ⟨_, e⟩ | ⟨hrej, _⟩
    · exact e
    · exact absurd hrej hform
  refine ⟨_, e, fun k => ?_, fun k hk => ?_, by simp, by simp [State.sameSetting], ?_⟩
  · rw [State.complete_byte, if_neg (hnodraw k)]
  · refine State.keeps_of_stored (by simp) (by simp) ?_
    rw [State.complete_stored, if_neg (hnodraw k), bytesOfInstr_length, if_neg (Nat.not_lt.2 hk)]
  · rw [State.complete_draws]
    rcases hlanes with huntouched | hfour
    · simp [huntouched]
    · simp [hfour]

/-- The record of results has no influence on an operation (R21). -/
theorem exec_record (i : Instr) (s : State) (ls : List Len) :
    ∃ t, exec i s = .next t ∧ exec i { s with lens := ls } = .next { t with lens := ls ++ [lenOfForm i.form] } := by
  rcases exec_cases i s with ⟨hform, e⟩ | ⟨hform, e⟩
  · rcases exec_cases i { s with lens := ls } with ⟨_, e'⟩ | ⟨hrej, _⟩
    · exact ⟨_, e, by rw [e', State.complete_record]⟩
    · exact absurd hrej hform
  · rcases exec_cases i { s with lens := ls } with ⟨hne, _⟩ | ⟨_, e'⟩
    · exact absurd hform hne
    · exact ⟨_, e, by rw [e', State.reject_record, hform]; rfl⟩

/-- Where a rejection leaves the lanes, it only returns 0 (R35, R76). -/
theorem State.reject_of_untouched {s : State} (h : s.rejectPolicy = .untouched) : s.reject = s.deliver 0 := by
  rw [State.reject, h, State.settleLanes]

/-! ### The byte formats at the width of the operand word -/

/-- A tag above a payload is the low part of an OR of operand words. -/
theorem tag_append_eq_setWidth_or {m n : Nat} {tag : BitVec m} {p : BitVec n} {T x : Word} (hmn : m + n ≤ 32)
    (hT : T.setWidth (m + n) = tag ++ 0#n) (hx : p.setWidth 32 = x) : tag ++ p = (T ||| x).setWidth (m + n) := by
  rw [tag_append_eq_or, BitVec.setWidth_or, hT, ← hx, BitVec.setWidth_setWidth_of_le p hmn]

theorem lead1_eq_setWidth {a : BitVec 7} {x : Word} (hx : a.setWidth 32 = x) : lead1 a = x.setWidth 8 :=
  (tag_append_eq_setWidth_or (T := 0#32) (by decide) rfl hx).trans (by rw [BitVec.zero_or])

theorem lead2_eq_setWidth_or {a : BitVec 5} {x : Word} (hx : a.setWidth 32 = x) :
    lead2 a = (0xC0#32 ||| x).setWidth 8 := tag_append_eq_setWidth_or (by decide) rfl hx

theorem lead3_eq_setWidth_or {a : BitVec 4} {x : Word} (hx : a.setWidth 32 = x) :
    lead3 a = (0xE0#32 ||| x).setWidth 8 := tag_append_eq_setWidth_or (by decide) rfl hx

theorem lead4_eq_setWidth_or {a : BitVec 3} {x : Word} (hx : a.setWidth 32 = x) :
    lead4 a = (0xF0#32 ||| x).setWidth 8 := tag_append_eq_setWidth_or (by decide) rfl hx

theorem cont_eq_setWidth_or {p : BitVec 6} {x : Word} (hx : p.setWidth 32 = x) :
    cont p = (0x80#32 ||| x).setWidth 8 := tag_append_eq_setWidth_or (by decide) rfl hx

end Sys2Proof.Machine
end

section
/-! PROOFS. The statements about the operation and its five forms: the operation in full (O13), ENC1 to ENC4 (O14 to
O17), ENCREJ (O18), and the step as the pure function on the buffer (O20). -/

namespace Sys2Proof.Machine

/-- Settles O13: on this hardware the operation puts the bytes of its value below the length (`exec_decode_untouching`);
the value's range says which bytes these are (`bytesOf_cases`). -/
theorem encodeOperationInFull : Obligations.EncodeOperationInFull := by
  intro v s hs
  obtain ⟨t, e, hlens, _, hbyte, hset, hdraws⟩ := exec_decode_untouching v hs
  have hkeeps (i : Nat) (hi : (lenOf v : Nat) ≤ i) : s.keeps t i := keeps_of_operation hs e hi
  refine ⟨t, e, hset, hdraws, ?_⟩
  rcases bytesOf_cases v with ⟨_, l, b⟩ | ⟨_, _, l, b⟩ | ⟨_, _, l, b⟩ | ⟨_, _, l, b⟩ | ⟨_, l, b⟩ <;>
    rw [l] at hlens hkeeps <;> rw [b] at hbyte
  · rw [if_pos (by omega)]
    exact ⟨hlens, hbyte 0, hkeeps⟩
  · rw [if_neg (by omega), if_pos (by omega)]
    exact ⟨hlens, hbyte 0, hbyte 1, hkeeps⟩
  · rw [if_neg (by omega), if_neg (by omega), if_pos (by omega)]
    exact ⟨hlens, hbyte 0, hbyte 1, hbyte 2, hkeeps⟩
  · rw [if_neg (by omega), if_neg (by omega), if_neg (by omega), if_pos (by omega)]
    exact ⟨hlens, hbyte 0, hbyte 1, hbyte 2, hbyte 3, hkeeps⟩
  · rw [if_neg (by omega), if_neg (by omega), if_neg (by omega), if_neg (by omega)]
    exact ⟨hlens, fun i => hkeeps i i.zero_le⟩

/-- Settles O14: the form writes its one byte, whose payload is the whole value. -/
theorem enc1WritesTheValueAsOneByte : Obligations.Enc1WritesTheValueAsOneByte := by
  refine ⟨fun v s hg htrail => ⟨by rw [decode, Form.of_enc1 hg], ?_⟩,
    fun v a h => ((Form.of_eq_iff v .enc1).mp (form_of_decode_eq h)).2⟩
  have hwhole : (v.extractLsb' 0 7).setWidth 32 = v := top_field_eq_shift (lo := 0) (Nat.lt_succ_of_le hg)
  obtain ⟨t, e, hbyte, hkeeps, hlens, hset, hdraws⟩ :=
    exec_of_form_ne_encRej (i := .enc1 (v.extractLsb' 0 7)) nofun (.inl htrail)
  exact ⟨t, e, hbyte 0, (hbyte 0).trans (lead1_eq_setWidth (low_field_eq_mask v 7 rfl)),
    (hbyte 0).trans (lead1_eq_setWidth hwhole), hkeeps, hlens, hset, hdraws⟩

/-- Settles O15: the form writes its two bytes; the value has 11 bits, so its top field is a shift. -/
theorem enc2WritesTwoBytes : Obligations.Enc2WritesTwoBytes := by
  refine ⟨fun v s hl hg htrail => ⟨by rw [decode, Form.of_enc2 hl hg], ?_⟩,
    fun v a b h => (Form.of_eq_iff v .enc2).mp (form_of_decode_eq h)⟩
  have hlt : v.toNat < 2 ^ 11 := Nat.lt_succ_of_le hg
  obtain ⟨t, e, hbyte, hkeeps, hlens, hset, hdraws⟩ :=
    exec_of_form_ne_encRej (i := .enc2 (v.extractLsb' 6 5) (v.extractLsb' 0 6)) nofun (.inl htrail)
  exact ⟨t, e, hbyte 0, (hbyte 0).trans (lead2_eq_setWidth_or (top_field_eq_shift hlt)),
    hbyte 1, (hbyte 1).trans (cont_eq_setWidth_or (low_field_eq_mask v 6 rfl)), hkeeps, hlens, hset, hdraws⟩

/-- Settles O16: the form writes its three bytes; the value has 16 bits, so its top field is a shift. -/
theorem enc3WritesThreeBytes : Obligations.Enc3WritesThreeBytes := by
  refine ⟨fun v s hl hg htrail => ⟨by rw [decode, Form.of_enc3 hl hg], ?_⟩,
    fun v a b c h => (Form.of_eq_iff v .enc3).mp (form_of_decode_eq h)⟩
  have hlt : v.toNat < 2 ^ 16 := Nat.lt_succ_of_le hg
  obtain ⟨t, e, hbyte, hkeeps, hlens, hset, hdraws⟩ :=
    exec_of_form_ne_encRej (i := .enc3 (v.extractLsb' 12 4) (v.extractLsb' 6 6) (v.extractLsb' 0 6)) nofun (.inl htrail)
  exact ⟨t, e, hbyte 0, (hbyte 0).trans (lead3_eq_setWidth_or (top_field_eq_shift hlt)),
    hbyte 1, (hbyte 1).trans (cont_eq_setWidth_or (field_eq_shift_and_mask v 6 6 rfl)),
    hbyte 2, (hbyte 2).trans (cont_eq_setWidth_or (low_field_eq_mask v 6 rfl)), hkeeps, hlens, hset, hdraws⟩

/-- Settles O17: the form writes its four bytes, which are all the lanes, so no policy matters; the value has 21 bits, so
its top field is a shift. -/
theorem enc4WritesFourBytes : Obligations.Enc4WritesFourBytes := by
  refine ⟨fun v s hl hg => ⟨by rw [decode, Form.of_enc4 hl hg], ?_⟩,
    fun v a b c d h => (Form.of_eq_iff v .enc4).mp (form_of_decode_eq h)⟩
  have hlt : v.toNat < 2 ^ 21 := hg.trans_lt (by decide)
  obtain ⟨t, e, hbyte, hkeeps, hlens, hset, hdraws⟩ := exec_of_form_ne_encRej (s := s)
    (i := .enc4 (v.extractLsb' 18 3) (v.extractLsb' 12 6) (v.extractLsb' 6 6) (v.extractLsb' 0 6)) nofun (.inr rfl)
  exact ⟨t, e, hbyte 0, (hbyte 0).trans (lead4_eq_setWidth_or (top_field_eq_shift hlt)),
    hbyte 1, (hbyte 1).trans (cont_eq_setWidth_or (field_eq_shift_and_mask v 12 6 rfl)),
    hbyte 2, (hbyte 2).trans (cont_eq_setWidth_or (field_eq_shift_and_mask v 6 6 rfl)),
    hbyte 3, (hbyte 3).trans (cont_eq_setWidth_or (low_field_eq_mask v 6 rfl)), hkeeps, hlens, hset, hdraws⟩

/-- Settles O18: the rejection only adds a 0 to the record of results (`State.reject_of_untouched`), and the record has
no influence on the next operation (`exec_record`). -/
theorem encRejReturnsZeroAndWritesNothing : Obligations.EncRejReturnsZeroAndWritesNothing := by
  refine ⟨fun v s hv hreject => ?_, fun v x h => ((Form.of_eq_iff v .encRej).mp (form_of_decode_eq h)).1⟩
  have f : Form.of v = .encRej := Form.of_encRej hv
  have hlen : lenOf v = 0 := by rw [lenOf, f]; rfl
  have e : exec (.encRej v) s = .next (s.deliver 0) := by rw [← State.reject_of_untouched hreject]; rfl
  refine ⟨by rw [decode, f], hlen, fun i => by simp [wen, hlen], s.deliver 0, e, rfl, rfl, fun i => s.keeps_refl i,
    ⟨rfl, rfl, rfl, rfl, rfl, rfl⟩, rfl, fun w => ?_⟩
  obtain ⟨u', eu', eu⟩ := exec_record (decode w) s (s.lens ++ [0])
  obtain ⟨u'', eu'', hlens, _⟩ := exec_decode w s
  obtain rfl := Host.Outcome.next.inj (eu'.symm.trans eu'')
  exact ⟨_, u', eu, eu', rfl, by rw [lenOf_eq]; rfl, hlens⟩

/-- Settles O20: the length counts the bytes, and an operation puts them below the length: with nothing else changed on
this hardware (`exec_decode_untouching`), and in the same way under every policy (`exec_decode`). -/
theorem stepIsThePureFunctionOnTheBuffer : Obligations.StepIsThePureFunctionOnTheBuffer := by
  refine ⟨bytesOf_length, fun v s hs => exec_decode_untouching v hs, fun v s => ?_⟩
  obtain ⟨t, e, hlens, hstored, hkeeps, _⟩ := exec_decode v s
  exact ⟨t, e, hlens, fun i hi => byte_of_stored_bytesOf hi (hstored i hi), hkeeps⟩

end Sys2Proof.Machine
end

section
/-! PROOFS. Facts about the encoding of a value (R91 to R101): the payload of the bytes is the operation word, the
length is the least class that holds the value, the first byte of a form is told from a later one and says the length,
and the first byte or field that differs decides the order. -/

namespace Sys2Proof

/-! ### The payload -/

theorem zero_append_toNat {n : Nat} (m : Nat) (p : BitVec n) : (0#m ++ p).toNat = p.toNat := by
  rw [append_toNat, BitVec.toNat_ofNat, Nat.zero_mod, Nat.zero_mul, Nat.zero_add]

section EncodeWord
variable (a : BitVec 7) (a2 : BitVec 5) (a3 : BitVec 4) (a4 : BitVec 3) (b c d : BitVec 6)

theorem encodeWord_enc1_toNat : (encodeWord (.enc1 a)).toNat = a.toNat := zero_append_toNat 25 a

theorem encodeWord_enc2_toNat : (encodeWord (.enc2 a2 b)).toNat = a2.toNat * 2 ^ 6 + b.toNat := by
  rw [encodeWord, append_toNat, zero_append_toNat]

theorem encodeWord_enc3_toNat :
    (encodeWord (.enc3 a3 b c)).toNat = (a3.toNat * 2 ^ 6 + b.toNat) * 2 ^ 6 + c.toNat := by
  rw [encodeWord, append_toNat, append_toNat, zero_append_toNat]

theorem encodeWord_enc4_toNat :
    (encodeWord (.enc4 a4 b c d)).toNat = ((a4.toNat * 2 ^ 6 + b.toNat) * 2 ^ 6 + c.toNat) * 2 ^ 6 + d.toNat := by
  rw [encodeWord, append_toNat, append_toNat, append_toNat, zero_append_toNat]

end EncodeWord

/-- The fields of a value under the zero bits of its format are the value. -/
theorem encodeWord_decode (v : Word) : encodeWord (decode v) = v := by
  rcases decode_cases v with ⟨h, _, d⟩ | ⟨_, h, _, d⟩ | ⟨_, h, _, d⟩ | ⟨_, h, _, d⟩ | ⟨_, _, d⟩ <;> rw [d]
  case inr.inr.inr.inr => rfl
  all_goals
    rw [← BitVec.toNat_inj]
    simp only [encodeWord_enc1_toNat, encodeWord_enc2_toNat, encodeWord_enc3_toNat, encodeWord_enc4_toNat, field_toNat]
    omega

namespace Machine

open Safety

/-- A mask of the payload's width drops the tag. -/
theorem tag_append_and_payloadMask {m n : Nat} (t : BitVec m) (p : BitVec n) {M : BitVec (m + n)}
    (hM : M = 0#m ++ BitVec.allOnes n) : ((t ++ p) &&& M).toNat = p.toNat := by
  rw [hM, BitVec.and_append, BitVec.and_zero, BitVec.and_allOnes, zero_append_toNat]

theorem lead1_and_payloadMask (a : BitVec 7) : (lead1 a &&& 0x7F).toNat = a.toNat :=
  tag_append_and_payloadMask 0b0#1 a rfl

theorem lead2_and_payloadMask (a : BitVec 5) : (lead2 a &&& 0x1F).toNat = a.toNat :=
  tag_append_and_payloadMask 0b110#3 a rfl

theorem lead3_and_payloadMask (a : BitVec 4) : (lead3 a &&& 0x0F).toNat = a.toNat :=
  tag_append_and_payloadMask 0b1110#4 a rfl

theorem lead4_and_payloadMask (a : BitVec 3) : (lead4 a &&& 0x07).toNat = a.toNat :=
  tag_append_and_payloadMask 0b11110#5 a rfl

theorem cont_and_payloadMask (p : BitVec 6) : (cont p &&& 0x3F).toNat = p.toNat :=
  tag_append_and_payloadMask 0b10#2 p rfl

/-- The payload of the bytes of an encoding form, as the sum of R94, is the form's operation word. -/
theorem payload_bytesOfInstr {i : Instr} (h : i.form ≠ .encRej) :
    payload (bytesOfInstr i) = (encodeWord i).toNat := by
  cases i with
  | enc1 a => rw [bytesOfInstr, enc1Bytes, payload, lead1_and_payloadMask, encodeWord_enc1_toNat]
  | enc2 a b =>
    simp only [bytesOfInstr, enc2Bytes, payload, lead2_and_payloadMask, cont_and_payloadMask, encodeWord_enc2_toNat]
    omega
  | enc3 a b c =>
    simp only [bytesOfInstr, enc3Bytes, payload, lead3_and_payloadMask, cont_and_payloadMask, encodeWord_enc3_toNat]
    omega
  | enc4 a b c d =>
    simp only [bytesOfInstr, enc4Bytes, payload, lead4_and_payloadMask, cont_and_payloadMask, encodeWord_enc4_toNat]
    omega
  | encRej value => exact absurd rfl h

/-- As the concatenation of R94 the payload is the fields side by side, so the operation word too. -/
theorem payloadBits_bytesOfInstr {i : Instr} (h : i.form ≠ .encRej) :
    payloadBits (bytesOfInstr i) = (encodeWord i).toNat := by
  have hcont (p : BitVec 6) : (cont p).setWidth 6 = p := BitVec.setWidth_append_eq_right
  cases i with
  | enc1 a =>
    have hlead : (lead1 a).setWidth 7 = a := BitVec.setWidth_append_eq_right
    rw [bytesOfInstr, enc1Bytes, payloadBits, hlead, encodeWord_enc1_toNat]
  | enc2 a b =>
    have hlead : (lead2 a).setWidth 5 = a := BitVec.setWidth_append_eq_right
    rw [bytesOfInstr, enc2Bytes, payloadBits, hlead, hcont, append_toNat, encodeWord_enc2_toNat]
  | enc3 a b c =>
    have hlead : (lead3 a).setWidth 4 = a := BitVec.setWidth_append_eq_right
    rw [bytesOfInstr, enc3Bytes, payloadBits, hlead, hcont, hcont, append_toNat, append_toNat, encodeWord_enc3_toNat]
  | enc4 a b c d =>
    have hlead : (lead4 a).setWidth 3 = a := BitVec.setWidth_append_eq_right
    rw [bytesOfInstr, enc4Bytes, payloadBits, hlead, hcont, hcont, hcont, append_toNat, append_toNat, append_toNat,
      encodeWord_enc4_toNat]
  | encRej value => exact absurd rfl h

theorem form_decode_ne_encRej {v : Word} (h : v.toNat ≤ 1114111) : (decode v).form ≠ .encRej := by
  rwa [decode_form, Form.of_ne_encRej_iff]

theorem payload_bytesOf {v : Word} (h : v.toNat ≤ 1114111) : payload (bytesOf v) = v.toNat := by
  rw [bytesOf, payload_bytesOfInstr (form_decode_ne_encRej h), encodeWord_decode]

theorem payloadBits_bytesOf {v : Word} (h : v.toNat ≤ 1114111) : payloadBits (bytesOf v) = v.toNat := by
  rw [bytesOf, payloadBits_bytesOfInstr (form_decode_ne_encRej h), encodeWord_decode]

/-- The payload reads the value back, so no two valid values have the same bytes (R100). -/
theorem bytesOf_injective {v w : Word} (hv : v.toNat ≤ 1114111) (hw : w.toNat ≤ 1114111)
    (h : bytesOf v = bytesOf w) : v = w :=
  BitVec.eq_of_toNat_eq (by rw [← payload_bytesOf hv, h, payload_bytesOf hw])

/-! ### The length -/

/-- A valid value has a length of at most `n` exactly when the class of `n` holds it (R93). -/
theorem lenOf_le_iff {v : Word} (hv : v.toNat ≤ 1114111) {n : Nat} (hn : 1 ≤ n) (hn' : n ≤ 4) :
    (lenOf v : Nat) ≤ n ↔ v.toNat ≤ classMax n := by
  obtain ⟨h1, h2, h3, h4⟩ : classMax 1 = 127 ∧ classMax 2 = 2047 ∧ classMax 3 = 65535 ∧ classMax 4 = 1114111 :=
    ⟨rfl, rfl, rfl, rfl⟩
  have hclasses : n = 1 ∨ n = 2 ∨ n = 3 ∨ n = 4 := by omega
  rcases bytesOf_cases v with ⟨_, l, _⟩ | ⟨_, _, l, _⟩ | ⟨_, _, l, _⟩ | ⟨_, _, l, _⟩ | ⟨_, _⟩
  case inr.inr.inr.inr => omega
  all_goals
    rw [l]
    rcases hclasses with rfl | rfl | rfl | rfl <;> omega

/-- The length is 0 exactly above the limit (R91). -/
theorem lenOf_eq_zero_iff (v : Word) : lenOf v = 0 ↔ 1114111 < v.toNat := by
  rcases bytesOf_cases v with ⟨_, l, _⟩ | ⟨_, _, l, _⟩ | ⟨_, _, l, _⟩ | ⟨_, _, l, _⟩ | ⟨_, l, _⟩
  case inr.inr.inr.inr => exact ⟨fun _ => by omega, fun _ => l⟩
  all_goals
    rw [l]
    exact ⟨fun h => absurd h (by decide), fun _ => by omega⟩

theorem one_le_lenOf_iff (v : Word) : 1 ≤ (lenOf v : Nat) ↔ v.toNat ≤ 1114111 := by
  have hzero := lenOf_eq_zero_iff v
  rw [← Fin.val_eq_zero_iff] at hzero
  omega

theorem le_classMax_lenOf {v : Word} (hv : v.toNat ≤ 1114111) : v.toNat ≤ classMax (lenOf v) :=
  (lenOf_le_iff hv ((one_le_lenOf_iff v).mpr hv) (by omega)).mp le_rfl

/-- The length does not decrease over the valid range (R91). -/
theorem lenOf_mono {v w : Word} (h : v.toNat ≤ w.toNat) (hw : w.toNat ≤ 1114111) : lenOf v ≤ lenOf w := by
  have hclass : v.toNat ≤ classMax (lenOf w) := h.trans (le_classMax_lenOf hw)
  exact (lenOf_le_iff (h.trans hw) ((one_le_lenOf_iff w).mpr hw) (by omega)).mpr hclass

/-! ### First bytes and later bytes -/

/-- The length can be read off the lead byte (R100 b). -/
theorem lenOf_eq_of_first_byte {v : Word} {b : Byte} (h : (bytesOf v)[0]? = some b) :
    (lenOf v : Nat) = if leadingOnes b = 0 then 1 else leadingOnes b := by
  rcases leadingOnes_first_byte h with ⟨hones, hlen⟩ | ⟨hones, hlen⟩
  · rw [if_pos hones, hlen]
    rfl
  · rw [if_neg (by omega), hlen]

theorem isCont_iff_leadingOnes (b : Byte) : isCont b = true ↔ leadingOnes b = 1 := by
  have := leadingOnes_cases b
  rw [isCont_iff]
  omega

/-- In an encoded form the first byte is the one that is not of format `CONT`. -/
theorem isCont_eq_false_iff_first {v : Word} {k : Nat} {b : Byte} (h : (bytesOf v)[k]? = some b) :
    isCont b = false ↔ k = 0 := by
  rw [← Bool.not_eq_true, isCont_iff_leadingOnes]
  obtain rfl | hk := Nat.eq_zero_or_pos k
  · have := leadingOnes_first_byte h
    omega
  · obtain ⟨p, rfl⟩ := exists_cont_of_later_byte hk h
    have hones : leadingOnes (cont p) = 1 := (isCont_iff_leadingOnes _).mp (isCont_cont p)
    omega

/-- A valid value has a first byte. -/
theorem exists_bytesOf_eq_cons {v : Word} (hv : v.toNat ≤ 1114111) : ∃ b bs, bytesOf v = b :: bs := by
  refine List.exists_cons_of_length_pos ?_
  rw [bytesOf_length]
  exact (one_le_lenOf_iff v).mpr hv

/-- No encoded form is a proper initial part of another (R100 b): the two share their first byte, so their length. -/
theorem eq_of_bytesOf_prefix {v w : Word} (hv : v.toNat ≤ 1114111) (hw : w.toNat ≤ 1114111)
    (h : bytesOf v <+: bytesOf w) : v = w := by
  obtain ⟨b, bs, hb⟩ := exists_bytesOf_eq_cons hv
  obtain ⟨c, cs, hc⟩ := exists_bytesOf_eq_cons hw
  obtain ⟨rfl, _⟩ : b = c ∧ bs <+: cs := by rwa [hb, hc, List.cons_prefix_cons] at h
  have hlength : (bytesOf v).length = (bytesOf w).length := by
    rw [bytesOf_length, bytesOf_length, lenOf_eq_of_first_byte (by rw [hb]; rfl),
      lenOf_eq_of_first_byte (by rw [hc]; rfl)]
  exact bytesOf_injective hv hw (h.eq_of_length hlength)

/-! ### Streams -/

theorem stream_cons (v : Word) (vs : List Word) : stream (v :: vs) = bytesOf v ++ stream vs := by
  rw [stream, stream, List.map_cons, List.flatten_cons]

theorem stream_take_succ_length (v : Word) (vs : List Word) (j : Nat) :
    (stream ((v :: vs).take (j + 1))).length = (bytesOf v).length + (stream (vs.take j)).length := by
  rw [List.take_succ_cons, stream_cons, List.length_append]

/-- The forms of a stream start where the first one does, and where those of the rest do behind it. -/
theorem exists_start_cons_iff (v : Word) (vs : List Word) (k : Nat) :
    (∃ j, j < (v :: vs).length ∧ k = (stream ((v :: vs).take j)).length) ↔
      k = 0 ∨ ∃ j, j < vs.length ∧ k = (bytesOf v).length + (stream (vs.take j)).length := by
  constructor
  · rintro ⟨j, hj, hk⟩
    cases j with
    | zero => exact .inl hk
    | succ j => exact .inr ⟨j, Nat.lt_of_succ_lt_succ hj, by rw [hk, stream_take_succ_length]⟩
  · rintro (hk | ⟨j, hj, hk⟩)
    · exact ⟨0, Nat.succ_pos _, hk⟩
    · exact ⟨j + 1, Nat.succ_lt_succ hj, by rw [hk, stream_take_succ_length]⟩

/-- In a stream of encoded forms a byte starts a form exactly when it is not of format `CONT` (R100 c), by induction on
the values: the byte lies in the first form or in the rest. -/
theorem isCont_eq_false_iff_start {vs : List Word} (hvs : ∀ v ∈ vs, v.toNat ≤ 1114111) {k : Nat} {b : Byte}
    (h : (stream vs)[k]? = some b) : isCont b = false ↔ ∃ j, j < vs.length ∧ k = (stream (vs.take j)).length := by
  induction vs generalizing k with
  | nil => cases h
  | cons v vs ih =>
    obtain ⟨hv, hrest⟩ := List.forall_mem_cons.mp hvs
    have hpos : 1 ≤ (bytesOf v).length := by
      rw [bytesOf_length]
      exact (one_le_lenOf_iff v).mpr hv
    rw [exists_start_cons_iff]
    rw [stream_cons] at h
    by_cases hk : k < (bytesOf v).length
    · rw [List.getElem?_append_left hk] at h
      rw [isCont_eq_false_iff_first h]
      refine ⟨.inl, ?_⟩
      rintro (hzero | ⟨j, _, hj⟩) <;> omega
    · rw [List.getElem?_append_right (by omega)] at h
      rw [ih hrest h]
      constructor
      · rintro ⟨j, hj, hj'⟩
        exact .inr ⟨j, hj, by omega⟩
      · rintro (hzero | ⟨j, hj, hj'⟩)
        · omega
        · exact ⟨j, hj, by omega⟩

/-! ### The masks of the formats -/

/-- A mask of the tag's width drops the payload. -/
theorem tag_append_and_tagMask {m n : Nat} (t : BitVec m) (p : BitVec n) {M T : BitVec (m + n)}
    (hM : M = BitVec.allOnes m ++ 0#n) (hT : T = t ++ 0#n) : (t ++ p) &&& M = T := by
  rw [hM, hT, BitVec.and_append, BitVec.and_allOnes, BitVec.and_zero]

theorem lead1_and_tagMask (a : BitVec 7) : lead1 a &&& 0x80#8 = 0x00#8 := tag_append_and_tagMask 0b0#1 a rfl rfl
theorem lead2_and_tagMask (a : BitVec 5) : lead2 a &&& 0xE0#8 = 0xC0#8 := tag_append_and_tagMask 0b110#3 a rfl rfl
theorem lead3_and_tagMask (a : BitVec 4) : lead3 a &&& 0xF0#8 = 0xE0#8 := tag_append_and_tagMask 0b1110#4 a rfl rfl
theorem lead4_and_tagMask (a : BitVec 3) : lead4 a &&& 0xF8#8 = 0xF0#8 := tag_append_and_tagMask 0b11110#5 a rfl rfl
theorem cont_and_tagMask (p : BitVec 6) : cont p &&& 0xC0#8 = 0x80#8 := tag_append_and_tagMask 0b10#2 p rfl rfl

/-- Every byte behind the first has the format `CONT` and its tag (R98). -/
theorem cont_of_mem_later {v : Word} {b c : Byte} {bs : List Byte} (h : bytesOf v = b :: bs) (hc : c ∈ bs) :
    c &&& 0xC0#8 = 0x80#8 ∧ ∃ p, c = cont p := by
  obtain ⟨k, hk⟩ := List.mem_iff_getElem?.mp hc
  obtain ⟨p, rfl⟩ := exists_cont_of_later_byte (v := v) (k := k + 1) (Nat.succ_pos k) (by rw [h]; exact hk)
  exact ⟨cont_and_tagMask p, p, rfl⟩

/-! ### The order of the byte lists -/

/-- The lexicographic order of unsigned bytes (R101). -/
abbrev BytesPrecede : List Byte → List Byte → Prop := List.Lex fun b c => b.toNat < c.toNat

/-- Forms of different lengths differ in their first byte, and the longer one has the greater. -/
theorem first_byte_lt_of_lenOf_lt {u v : Word} {b c : Byte} (hb : (bytesOf u)[0]? = some b)
    (hc : (bytesOf v)[0]? = some c) (h : lenOf u < lenOf v) : b.toNat < c.toNat := by
  have hlt : (lenOf u : Nat) < lenOf v := h
  have hv := (lenOf v).isLt
  rw [lenOf_eq_of_first_byte hb, lenOf_eq_of_first_byte hc] at hlt
  rw [lenOf_eq_of_first_byte hc] at hv
  have hb' := leadingOnes_cases b
  have hc' := leadingOnes_cases c
  split_ifs at hlt hv <;> omega

theorem lenOfForm_injective : Function.Injective lenOfForm := by
  intro f g h
  cases f <;> cases g <;> cases h <;> rfl

/-- A format keeps the order of its payloads, so the first field that differs decides: values compared on their low
`lo + n` bits are compared on the field of `n` bits from bit `lo` on, and where that is the same on the bits below. -/
theorem precede_cons_field {n base lo : Nat} {f : BitVec n → Byte} (hf : ∀ a, (f a).toNat = base + a.toNat)
    {u v : Word} {bs cs : List Byte} (h : u.toNat % 2 ^ (lo + n) < v.toNat % 2 ^ (lo + n))
    (hrest : u.toNat % 2 ^ lo < v.toNat % 2 ^ lo → BytesPrecede bs cs) :
    BytesPrecede (f (u.extractLsb' lo n) :: bs) (f (v.extractLsb' lo n) :: cs) := by
  rw [Nat.pow_add, Nat.mod_mul, Nat.mod_mul, ← field_toNat, ← field_toNat] at h
  rcases Nat.lt_trichotomy (u.extractLsb' lo n).toNat (v.extractLsb' lo n).toNat with hlt | heq | hgt
  · exact .rel (by rw [hf, hf]; omega)
  · rw [BitVec.eq_of_toNat_eq heq]
    rw [heq] at h
    exact .cons (hrest (by omega))
  · have hstep := Nat.mul_le_mul_left (2 ^ lo) hgt
    rw [Nat.mul_succ] at hstep
    have := Nat.mod_lt v.toNat (Nat.two_pow_pos lo)
    omega

/-- Within a form the first field that differs decides, as it decides between the values. -/
theorem bytesPrecede_of_form_eq {u v : Word} (hv : v.toNat ≤ 1114111) (hlt : u.toNat < v.toNat)
    (hform : Form.of u = Form.of v) : BytesPrecede (bytesOf u) (bytesOf v) := by
  have hrange := Form.of_in_range v
  have hlow (k : Nat) (hk : (Form.of v).greatest < 2 ^ k) : u.toNat % 2 ^ k < v.toNat % 2 ^ k := by
    rwa [Nat.mod_eq_of_lt (by omega), Nat.mod_eq_of_lt (by omega)]
  have hnone {bs : List Byte} (h : u.toNat % 2 ^ 0 < v.toNat % 2 ^ 0) : BytesPrecede bs bs := by omega
  rw [bytesOf, bytesOf, decode, decode, hform]
  cases hf : Form.of v with
  | enc1 =>
    have hlead (a : BitVec 7) : (lead1 a).toNat = 0 + a.toNat := by rw [lead1_toNat, Nat.zero_add]
    exact precede_cons_field hlead (hlow 7 (by rw [hf]; decide)) hnone
  | enc2 =>
    exact precede_cons_field lead2_toNat (hlow 11 (by rw [hf]; decide)) fun h =>
      precede_cons_field cont_toNat h hnone
  | enc3 =>
    exact precede_cons_field lead3_toNat (hlow 16 (by rw [hf]; decide)) fun h =>
      precede_cons_field cont_toNat h fun h => precede_cons_field cont_toNat h hnone
  | enc4 =>
    exact precede_cons_field lead4_toNat (hlow 21 (by rw [hf]; decide)) fun h =>
      precede_cons_field cont_toNat h fun h => precede_cons_field cont_toNat h fun h =>
        precede_cons_field cont_toNat h hnone
  | encRej => exact absurd hf ((Form.of_ne_encRej_iff v).mpr hv)

end Machine

end Sys2Proof
end

section
/-! PROOFS. The statements of the properties of `41_properties.md`: purity (O25), the length result (O30, O31, O33), the
payload (O32), the shape of the output (O34), injectivity and streams (O35), and the order (O37). -/

namespace Sys2Proof.Machine

/-- Settles O32: the fields of a valid value, laid side by side, are the value (`payload_bytesOf`,
`payloadBits_bytesOf`), and an operation puts the bytes of its value below the length under every policy
(`exec_decode`). -/
theorem payloadRoundTrip : Obligations.PayloadRoundTrip := by
  intro v s hv
  obtain ⟨t, e, hlens, hstored, _⟩ := exec_decode v s
  exact ⟨payload_bytesOf hv, payloadBits_bytesOf hv, t, e, hlens, fun i hi => byte_of_stored_bytesOf hi (hstored i hi)⟩

/-- Settles O25: what each of the two operations stores below the length are bytes of the value, which do not depend on
the state (`exec_decode_untouching`). -/
theorem operationsArePure : Obligations.OperationsArePure := by
  intro v s s' hs hs'
  obtain ⟨t, e, hlens, hstored, _⟩ := exec_decode_untouching v hs
  obtain ⟨t', e', hlens', hstored', _⟩ := exec_decode_untouching v hs'
  refine ⟨t, t', e, e', hlens, hlens', fun i => ⟨fun hi => ?_, fun hi => ⟨keeps_of_operation hs e hi,
    keeps_of_operation hs' e' hi⟩⟩⟩
  have hb : t.stored i = (bytesOf v)[i]? := by rw [hstored, if_pos hi]
  have hb' : t'.stored i = (bytesOf v)[i]? := by rw [hstored', if_pos hi]
  have hbyte := byte_of_stored_bytesOf hi hb
  have hbyte' := byte_of_stored_bytesOf hi hb'
  exact ⟨hb.trans hb'.symm, by rw [hb, hbyte]; simp, Option.some.inj (hbyte.symm.trans hbyte')⟩

/-- Settles O30: a value of each class shows that the five lengths occur, the port's three bits hold a length as it is,
and over the valid range the length follows the classes (`lenOf_mono`). -/
theorem lengthResultValues : Obligations.LengthResultValues := by
  refine ⟨fun n => ⟨?_, fun hn => ?_⟩, fun v => ?_, fun v => ⟨lenOf_eq_zero_iff v, one_le_lenOf_iff v⟩,
    fun v w => lenOf_mono⟩
  · rintro ⟨v, rfl⟩
    omega
  · obtain rfl | rfl | rfl | rfl | rfl : n = 0 ∨ n = 1 ∨ n = 2 ∨ n = 3 ∨ n = 4 := by omega
    · exact ⟨1114112#32, by decide⟩
    · exact ⟨127#32, by decide⟩
    · exact ⟨2047#32, by decide⟩
    · exact ⟨65535#32, by decide⟩
    · exact ⟨1114111#32, by decide⟩
  · have hport : (lenPort v).toNat = (lenOf v : Nat) := by
      rw [lenPort, BitVec.toNat_ofNat, Nat.mod_eq_of_lt (by omega)]
    have hne (k : BitVec 3) (hk : 5 ≤ k.toNat) : lenPort v ≠ k := by
      rintro rfl
      omega
    exact ⟨hport, hne 5 (by decide), hne 6 (by decide), hne 7 (by decide)⟩

/-- Settles O31: a class holds the value exactly when the length does not exceed it (`lenOf_le_iff`). -/
theorem lengthIsMinimal : Obligations.LengthIsMinimal := by
  intro v hv
  refine ⟨⟨(one_le_lenOf_iff v).mpr hv, by omega, le_classMax_lenOf hv⟩, fun n hn hn' => (lenOf_le_iff hv hn hn').mpr,
    fun h => ?_, fun h => ?_, fun h => ?_⟩
  · exact Nat.lt_succ_of_le ((lenOf_le_iff hv le_rfl (by decide)).mpr (Nat.le_of_lt_succ h))
  · exact Nat.lt_succ_of_le ((lenOf_le_iff hv (by decide) (by decide)).mpr (Nat.le_of_lt_succ h))
  · exact Nat.lt_succ_of_le ((lenOf_le_iff hv (by decide) (by decide)).mpr (Nat.le_of_lt_succ h))

/-- Settles O34: the form of the value says the lead format, and every byte behind the first has the format `CONT`. -/
theorem outputIsWellFormed : Obligations.OutputIsWellFormed := by
  intro v hv
  rcases bytesOf_cases v with ⟨_, l, e⟩ | ⟨_, _, l, e⟩ | ⟨_, _, l, e⟩ | ⟨_, _, l, e⟩ | ⟨_, _⟩
  · exact ⟨_, _, e, .inl ⟨l, lead1_and_tagMask _, _, rfl⟩, fun c => cont_of_mem_later e⟩
  · exact ⟨_, _, e, .inr (.inl ⟨l, lead2_and_tagMask _, _, rfl⟩), fun c => cont_of_mem_later e⟩
  · exact ⟨_, _, e, .inr (.inr (.inl ⟨l, lead3_and_tagMask _, _, rfl⟩)), fun c => cont_of_mem_later e⟩
  · exact ⟨_, _, e, .inr (.inr (.inr ⟨l, lead4_and_tagMask _, _, rfl⟩)), fun c => cont_of_mem_later e⟩
  · omega

/-- Settles O35: the payload reads the value back (`bytesOf_injective`), the lead byte says the length, so that an
initial part is the whole (`eq_of_bytesOf_prefix`), and only the first byte of a form is not of format `CONT`
(`isCont_eq_false_iff_start`). -/
theorem encodingIsInjectiveAndSegmentable : Obligations.EncodingIsInjectiveAndSegmentable := by
  refine ⟨fun v w hv hw hne h => hne (bytesOf_injective hv hw (Prod.mk.inj h).2), fun v b => lenOf_eq_of_first_byte,
    fun v w hv hw => ⟨fun hne h => hne (bytesOf_injective hv hw h), eq_of_bytesOf_prefix hv hw⟩,
    fun vs hvs k b => isCont_eq_false_iff_start hvs⟩

/-- Settles O37: a shorter form has the smaller first byte, and within one form the first field that differs decides. -/
theorem orderIsPreserved : Obligations.OrderIsPreserved := by
  intro u v hv hlt
  rcases (lenOf_mono hlt.le hv).lt_or_eq with hlen | hlen
  · obtain ⟨b, bs, hb⟩ := exists_bytesOf_eq_cons (hlt.le.trans hv)
    obtain ⟨c, cs, hc⟩ := exists_bytesOf_eq_cons hv
    have hfirst := first_byte_lt_of_lenOf_lt (by rw [hb]; rfl) (by rw [hc]; rfl) hlen
    rw [hb, hc]
    exact .rel hfirst
  · exact bytesPrecede_of_form_eq hv hlt (lenOfForm_injective hlen)

/-- Settles O33: the length of each of the eight values is evaluated. -/
theorem boundariesAreExact : Obligations.BoundariesAreExact := by
  unfold Obligations.BoundariesAreExact
  decide

end Sys2Proof.Machine
end

section
/-! PROOFS. The statements of the one error (`60_exceptions.md`): when OutOfRange is signalled (O28), and that a rejection
has no effect on what follows (O29). -/

namespace Sys2Proof.Machine

/-- The signal is the length 0 (R110). -/
theorem outOfRange_iff (n : Len) : outOfRange n = true ↔ n = 0 := beq_iff_eq

/-- The lengths tell the forms apart, so 0 is returned by the rejecting form only. -/
theorem lenOf_eq_zero_iff_form (v : Word) : lenOf v = 0 ↔ (decode v).form = .encRej := by
  rw [lenOf_eq]
  exact lenOfForm_injective.eq_iff (b := .encRej)

/-- Where a rejection leaves the lanes, a value above the limit only adds a 0 to the record of results (R35, R76). -/
theorem exec_decode_of_outOfRange {v : Word} {s : State} (hv : 1114111 < v.toNat) (h : s.rejectPolicy = .untouched) :
    exec (decode v) s = .next (s.deliver 0) := by
  rw [← State.reject_of_untouched h, decode, Form.of_encRej hv]
  rfl

/-- Settles O28: the length is 0 exactly above the limit (`lenOf_eq_zero_iff`) and in the rejecting form only
(`lenOf_eq_zero_iff_form`), and every operation returns the length of its value (`exec_decode`). -/
theorem outOfRangeIsTheOneError : Obligations.OutOfRangeIsTheOneError := by
  intro v s
  obtain ⟨t, e, hlens, _⟩ := exec_decode v s
  have hzero := outOfRange_iff (lenOf v)
  exact ⟨hzero.trans (lenOf_eq_zero_iff v), hzero, hzero.trans (lenOf_eq_zero_iff_form v), t, e, hlens⟩

/-- Settles O29: the rejection only adds a 0 to the record of results (`exec_decode_of_outOfRange`), the record has no
influence on the next operation (`exec_record`), and the policy that the second rejection follows is still the same. -/
theorem rejectionLeavesNoTrace : Obligations.RejectionLeavesNoTrace := by
  intro v s hv hreject
  refine ⟨s.deliver 0, exec_decode_of_outOfRange hv hreject, fun w => ?_,
    (s.deliver 0).deliver 0, exec_decode_of_outOfRange hv hreject, rfl⟩
  obtain ⟨u', e', e⟩ := exec_record (decode w) s (s.lens ++ [0])
  exact ⟨_, u', e, e', by rw [lenOf_eq, List.append_assoc]; rfl⟩

end Sys2Proof.Machine
end

section
/-! PROOFS. The decoder and the encoder of the operation word: they agree (O4), and what a table word decodes to (O5,
O6). -/

namespace Sys2Proof

/-- A string that fits the operand word is the number it is (log entry 14). -/
theorem operandWord_of_lt {nbits w : Nat} (h : w < 2 ^ nbits) : operandWord nbits w = BitVec.ofNat 32 w := by
  rw [operandWord, Nat.mod_eq_of_lt h]

theorem decodeBits_of_le {nbits : Nat} (w : Nat) (h : nbits ≤ 32) :
    decodeBits nbits w = .ok (decode (operandWord nbits w)) := if_pos h

theorem decodeBits_of_wide {nbits : Nat} (w : Nat) (h : 32 < nbits) :
    decodeBits nbits w = .error .widerThanOperandWord := if_neg (Nat.not_le.2 h)

/-- Settles O4: the form and the fields of a well-formed instruction can be read off its word (`decode_encodeWord`),
and the fields of any value are well-formed (`wf_decode`) and make up the value again (`encodeWord_decode`). -/
theorem decodeAndEncodeWordAgree : Obligations.DecodeAndEncodeWordAgree :=
  ⟨fun _ => decode_encodeWord, fun v => ⟨wf_decode v, encodeWord_decode v⟩⟩

/-- Settles O5: the decoder's one test is the number of bits, and a word of that many bits is not cut short
(`operandWord_of_lt`). -/
theorem tableWordsDecodeAsNumbers : Obligations.TableWordsDecodeAsNumbers := by
  refine ⟨fun nbits w hn hw => ?_, fun nbits w hn => ⟨?_, decodeBits_of_wide w hn⟩⟩
  · rw [decodeTableWord, decodeBits_of_le w hn, operandWord_of_lt hw]
  · rw [decodeTableWord, decodeBits_of_wide w hn]

/-- Settles O6: the six words are decoded. -/
theorem sampleWordsDecode : Obligations.SampleWordsDecode := by
  unfold Obligations.SampleWordsDecode
  decide

end Sys2Proof
end

section
/-! PROOFS. Facts about one access of the caller: that it keeps the invariant, that an admitted one is carried out,
and what the step does with the operation of a table word. -/

namespace Sys2Proof.Machine

/-- Every access keeps the invariant: an operation does (`inv_exec`), a store is below `CAP`, a fresh buffer lists
nothing. -/
theorem inv_access {a : Access} {s t : State} (h : s.inv = true) (e : access a s = .next t) : t.inv = true := by
  rcases access_cases e with ⟨v, _, e⟩ | ⟨i, _, _, rfl⟩ | ⟨i, b, _, hi, rfl⟩ | ⟨extra, _, rfl⟩
  · exact inv_exec h e
  · exact h
  · exact State.inv_storeByte b h hi
  · rfl

theorem State.cap_of_sameSetting {s t : State} (h : s.sameSetting t) : t.cap = s.cap := by
  obtain ⟨hcap, _⟩ := h
  rw [State.cap, State.cap, hcap]

theorem State.pending_of_sameSetting {s t : State} (h : s.sameSetting t) : t.pending = s.pending := by
  obtain ⟨_, _, _, _, _, hpending⟩ := h
  exact hpending

/-- An access that its caller may make answers a next state, with the capacity the access says and no request taken. -/
theorem access_of_admitted {a : Access} {s : State} (h : a.admitted s.cap = true) :
    ∃ t, access a s = .next t ∧ t.cap = a.capAfter s.cap ∧ t.pending = s.pending := by
  cases a with
  | operation v =>
    obtain ⟨t, e, _, _, _, hset⟩ := exec_decode v s
    exact ⟨t, e, State.cap_of_sameSetting hset, State.pending_of_sameSetting hset⟩
  | load i => exact ⟨s, if_pos (of_decide_eq_true h), rfl, rfl⟩
  | store i b => exact ⟨s.storeByte i b, if_pos (of_decide_eq_true h), rfl, rfl⟩
  | freshBuffer extra => exact ⟨_, rfl, rfl, rfl⟩

theorem admittedRequests_alone_iff (cap : Nat) (a : Access) (rest : List Request) :
    admittedRequests cap (.alone a :: rest) = true ↔
      a.admitted cap = true ∧ admittedRequests (a.capAfter cap) rest = true := by
  rw [admittedRequests, Bool.and_eq_true]

theorem not_admittedRequests_overlapping (cap : Nat) (v : Word) (a : Access) (rest : List Request) :
    ¬ admittedRequests cap (.overlapping v a :: rest) = true := Bool.false_ne_true

/-- A step of a caller that keeps its obligations answers a next state, from which the caller keeps them still. -/
theorem step_of_admitted {s : State} (h : admittedRequests s.cap s.pending = true) :
    ∃ t, step s = .next t ∧ admittedRequests t.cap t.pending = true := by
  rcases hp : s.pending with _ | ⟨⟨a⟩ | ⟨v, a⟩, rest⟩
  · exact ⟨s, step_of_no_request hp, h⟩
  · rw [hp, admittedRequests_alone_iff] at h
    obtain ⟨ha, hrest⟩ := h
    obtain ⟨t, e, hcap, hpending⟩ := access_of_admitted (s := s.taken) ha
    refine ⟨t, (step_of_alone hp).trans e, ?_⟩
    rwa [hcap, hpending, State.taken_pending, hp, List.tail_cons]
  · rw [hp] at h
    exact absurd h (not_admittedRequests_overlapping _ v a rest)

/-- The operation of a table word that fits is the caller's next request. -/
theorem withFetchWord_of_lt (s : State) {nbits w : Nat} (hn : nbits ≤ 32) (hw : w < 2 ^ nbits) :
    s.withFetchWord nbits w = s.issueFirst (BitVec.ofNat 32 w) := by
  rw [State.withFetchWord, State.issueTableWord_of_le s w hn, operandWord_of_lt hw]

theorem step_issueFirst (s : State) (v : Word) : step (s.issueFirst v) = exec (decode v) s := by
  rw [step_of_alone (State.issueFirst_pending s v), State.issueFirst_taken, access]

end Sys2Proof.Machine
end

section
/-! PROOFS. The statements about the machine as a whole: the invariant (O45, O46), callers that keep their obligations
(O49, O44), the settings (O48), what a step runs (O38, O39), and the state after reset (O47). -/

namespace Sys2Proof.Machine

/-- Settles O45: a step without a request changes nothing, and any other is one access (`inv_access`). -/
theorem everyStepKeepsTheBufferInvariant : Obligations.EveryStepKeepsTheBufferInvariant := by
  intro s t h e
  rcases step_cases e with ⟨_, rfl⟩ | ⟨a, rest, _, e⟩
  · exact h
  · exact inv_access (s := s.taken) h e

/-- Settles O46: the memory at reset lists nothing. -/
theorem resetMeetsTheBufferInvariant : Obligations.ResetMeetsTheBufferInvariant :=
  (State.inv_iff _).mpr ⟨reset_memory_wf, rfl⟩

/-- Settles O49: the next request is an admitted access, which is carried out (`access_of_admitted`), and the rest was
admitted at the capacity that the access leaves. -/
theorem admittedRequestsStepOn : Obligations.AdmittedRequestsStepOn := fun _ => step_of_admitted

/-- Settles O44, by induction on the number of steps: each step keeps the caller's obligations (`step_of_admitted`). -/
theorem admittedCallersAreNeverStopped : Obligations.AdmittedCallersAreNeverStopped := by
  intro s h k
  induction k generalizing s with
  | zero => exact ⟨s, rfl⟩
  | succ k ih =>
    obtain ⟨s', e, h'⟩ := step_of_admitted h
    obtain ⟨t, hrun⟩ := ih s' h'
    exact ⟨t, (run_succ k e).trans hrun⟩

/-- Settles O48: a step takes no request or one access, and of the accesses only a fresh buffer sets the capacity and
the buffer, and only an operation returns a length (`exec_decode`). -/
theorem stepsChangeNoSetting : Obligations.StepsChangeNoSetting := by
  intro s t e
  rcases step_cases e with ⟨hp, rfl⟩ | ⟨a, rest, hp, e⟩
  · rw [hp]
    exact ⟨rfl, rfl, rfl, rfl, rfl, rfl, rfl⟩
  rw [show s.pending.head? = some (.alone a) by rw [hp, List.head?_cons]]
  rcases access_cases e with ⟨v, rfl, e⟩ | ⟨i, rfl, _, rfl⟩ | ⟨i, b, rfl, _, rfl⟩ | ⟨extra, rfl, rfl⟩
  · obtain ⟨t', e', hlens, _, _, hcap, htrail, hreject, henv, hbuf, hpending⟩ := exec_decode v s.taken
    obtain rfl := Host.Outcome.next.inj (e'.symm.trans e)
    exact ⟨htrail, hreject, henv, hpending, hcap, hbuf, hlens⟩
  all_goals exact ⟨rfl, rfl, rfl, rfl, rfl, rfl, rfl⟩

/-- Settles O38: an operation taken from the requests is `exec` of its decoded value (`step_of_alone`), and a table word
that fits is such a request (`withFetchWord_of_lt`). -/
theorem stepRunsTheDecodedOperation : Obligations.StepRunsTheDecodedOperation := by
  refine ⟨fun s v rest hp => ⟨wf_decode v, ?_⟩, fun s nbits w hn hw => ?_,
    fun s nbits w hn => State.issueTableWord_of_wide s w hn⟩
  · rw [step_of_alone hp, access, State.taken, hp, List.tail_cons]
  · rw [withFetchWord_of_lt s hn hw]
    exact ⟨State.issueFirst_pending s _, step_issueFirst s _⟩

/-- Settles O39: each of the caller's own accesses is carried out at the state with its request taken off
(`step_of_alone`), inside the buffer only. -/
theorem callerUsesItsBufferBetweenOperations : Obligations.CallerUsesItsBufferBetweenOperations := by
  refine ⟨fun s => step_of_no_request, fun s i rest hp => ?_, fun s i b rest hp => ⟨fun hi => ?_, fun hi => ?_⟩,
    fun s extra rest hp => ?_⟩
  · rw [step_of_alone hp, access, callerLoad, State.taken_cap, State.taken, hp, List.tail_cons]
  · rw [step_of_alone hp]
    exact if_neg (Nat.not_lt.2 hi)
  · refine ⟨s.taken.storeByte i b, (step_of_alone hp).trans (if_pos hi), by simp,
      fun j hj => State.keeps_storeByte s.taken b hj, ?_⟩
    rw [State.storeByte, State.taken, hp, List.tail_cons]
  · refine ⟨_, step_of_alone hp, Nat.add_comm extra 4, fun i => ⟨rfl, rfl⟩, rfl, ?_⟩
    rw [State.taken, hp, List.tail_cons]

/-- Settles O47: on a buffer with nothing written an operation stores the bytes of its value and no others
(`exec_decode_untouching`). -/
theorem resetStateAndFirstOperation : Obligations.ResetStateAndFirstOperation := by
  have hs : State.reset.untouching := ⟨rfl, rfl⟩
  refine ⟨fun i => ⟨rfl, rfl⟩, rfl, hs, rfl, rfl, fun v => ?_⟩
  obtain ⟨t, e, hlens, hstored, _⟩ := exec_decode_untouching v hs
  have hstep : step (State.reset.withFetchWord 32 v.toNat) = exec (decode v) State.reset := by
    rw [withFetchWord_of_lt _ le_rfl v.isLt, BitVec.ofNat_toNat, BitVec.setWidth_eq, step_issueFirst]
  refine ⟨t, hstep.trans e, hlens, fun i => ?_, fun i hi => keeps_of_operation hs e hi⟩
  rw [hstored]
  by_cases hi : i < (lenOf v : Nat)
  · rw [if_pos hi]
  · rw [if_neg hi, List.getElem?_eq_none (by rw [bytesOf_length]; omega)]
    rfl

end Sys2Proof.Machine
end

section
/-! PROOFS. Facts about one operation under every policy: that every instruction completes, what a valid and a rejected
value do, the ports (R18), and what the caller reads back. -/

namespace Sys2Proof.Machine

/-- Every instruction completes on every state, whatever its fields: it returns the length of its form, holds the
bytes of its form below that length, and leaves indices 4 and above and every setting as they were. -/
theorem exec_completes (i : Instr) (s : State) :
    ∃ t, exec i s = .next t ∧ t.lens = s.lens ++ [lenOfForm i.form] ∧
      (∀ (k : Nat) (b : Byte), (bytesOfInstr i)[k]? = some b → t.byte k = b) ∧ (∀ k, 4 ≤ k → s.keeps t k) ∧
      s.sameSetting t := by
  have hlength := bytesOfInstr_length i
  rcases exec_cases i s with ⟨_, e⟩ | ⟨hrej, e⟩
  · refine ⟨_, e, by simp, fun k b hb => ?_, fun k hk => ?_, by simp [State.sameSetting]⟩
    · obtain ⟨hk, _⟩ := List.getElem?_eq_some_iff.mp hb
      rw [State.complete_byte, if_neg (by omega), hb, Option.getD_some]
    · refine State.keeps_of_stored (by simp) (by simp) ?_
      rw [State.complete_stored, if_neg (by omega), if_neg (by omega)]
  · rw [hrej] at hlength ⊢
    refine ⟨_, e, by simp [lenOfForm], fun k b hb => ?_, fun k hk => ?_, by simp [State.sameSetting]⟩
    · rw [List.eq_nil_of_length_eq_zero hlength] at hb
      cases hb
    · exact State.keeps_of_stored (by simp) (by simp) (by rw [State.reject_stored, if_neg (by omega)])

/-- A valid value completes with its length and its bytes. -/
theorem exec_decode_of_valid {v : Word} (hv : v.toNat ≤ 1114111) (s : State) :
    exec (decode v) s = .next (s.complete (lenOf v) (bytesOf v)) := by
  rcases exec_cases (decode v) s with ⟨_, e⟩ | ⟨hrej, _⟩
  · rw [e, lenOf_eq, bytesOf]
  · exact absurd hrej (form_decode_ne_encRej hv)

/-- A value above the limit is rejected. -/
theorem exec_decode_of_rejected {v : Word} (hv : 1114111 < v.toNat) (s : State) :
    exec (decode v) s = .next s.reject := by
  rw [decode, Form.of_encRej hv, exec, execEncRej]

/-! ### The ports -/

theorem wen_iff (v : Word) (i : Nat) : wen v i = true ↔ i < (lenOf v : Nat) := decide_eq_true_iff

theorem wen_eq_false {v : Word} {i : Nat} (hi : 4 ≤ i) : wen v i = false := decide_eq_false (by omega)

/-- Where the write enable is set, the lane carries the byte of the value. -/
theorem getElem?_bytesOf_of_wen {v : Word} {i : Nat} (h : wen v i = true) : (bytesOf v)[i]? = some (wdata v i) := by
  have hi : i < (bytesOf v).length := by rwa [bytesOf_length, ← wen_iff]
  rw [wdata, List.getElem?_eq_getElem hi, Option.getD_some]

/-- Where the write enable is not set, the value has no byte. -/
theorem getElem?_bytesOf_of_not_wen {v : Word} {i : Nat} (h : ¬ wen v i = true) : (bytesOf v)[i]? = none := by
  refine List.getElem?_eq_none ?_
  rwa [bytesOf_length, ← Nat.not_lt, ← wen_iff]

/-! ### The caller's reading -/

/-- A caller that has just been returned `n` reads the first `n` bytes. -/
theorem State.lastResult_of_lens {t : State} {ls : List Len} {n : Len} (h : t.lens = ls ++ [n]) :
    t.lastResult = (List.range n).map t.byte := by
  rw [State.lastResult, h, List.getLast?_concat]

/-- The bytes below the length are the encoded form as soon as each of them is. -/
theorem map_byte_range_lenOf {v : Word} {t : State} (h : ∀ i, i < (lenOf v : Nat) → (bytesOf v)[i]? = some (t.byte i)) :
    (List.range (lenOf v)).map t.byte = bytesOf v := by
  refine List.ext_getElem (by simp [bytesOf_length]) fun i hi hi' => ?_
  rw [List.getElem_map, List.getElem_range]
  exact (List.getElem?_eq_some_iff.mp (h i (by rwa [bytesOf_length] at hi'))).2.symm

end Sys2Proof.Machine
end

section
/-! PROOFS. The statements about one operation under every policy: completion (O19), the ports (O21), the address map
(O22), the policies (O26, O27), and what a correct caller reads (O43). -/

namespace Sys2Proof.Machine

open Safety

/-- Settles O19: every instruction completes with the length and the bytes of its form (`exec_completes`). -/
theorem everyFormCompletesUnderEveryPolicy : Obligations.EveryFormCompletesUnderEveryPolicy := by
  refine ⟨fun a s => ?_, fun a b s => ?_, fun a b c s => ?_, fun a b c d s => ?_, fun v s => ?_⟩
  · obtain ⟨t, e, hlens, hbyte, hframe⟩ := exec_completes (.enc1 a) s
    exact ⟨t, e, hlens, hbyte 0 _ rfl, hframe⟩
  · obtain ⟨t, e, hlens, hbyte, hframe⟩ := exec_completes (.enc2 a b) s
    exact ⟨t, e, hlens, hbyte 0 _ rfl, hbyte 1 _ rfl, hframe⟩
  · obtain ⟨t, e, hlens, hbyte, hframe⟩ := exec_completes (.enc3 a b c) s
    exact ⟨t, e, hlens, hbyte 0 _ rfl, hbyte 1 _ rfl, hbyte 2 _ rfl, hframe⟩
  · obtain ⟨t, e, hlens, hbyte, hframe⟩ := exec_completes (.enc4 a b c d) s
    exact ⟨t, e, hlens, hbyte 0 _ rfl, hbyte 1 _ rfl, hbyte 2 _ rfl, hbyte 3 _ rfl, hframe⟩
  · obtain ⟨t, e, hlens, _, hframe⟩ := exec_completes (.encRej v) s
    exact ⟨t, e, hlens, hframe⟩

/-- Settles O21: on this hardware an operation stores the bytes of its value below the length
(`exec_decode_untouching`), and these are what the enabled lanes carry (`getElem?_bytesOf_of_wen`). -/
theorem portsSayWhatIsWritten : Obligations.PortsSayWhatIsWritten := by
  intro v s hs
  obtain ⟨t, e, hlens, hstored, hbyte, _⟩ := exec_decode_untouching v hs
  refine ⟨wen_iff v, fun i => wen_eq_false, t, e, hlens, fun i => ?_⟩
  rw [hstored, hbyte]
  simp only [← wen_iff]
  by_cases hw : wen v i = true
  · rw [if_pos hw, if_pos hw, if_pos hw, getElem?_bytesOf_of_wen hw]
    exact ⟨rfl, rfl⟩
  · rw [if_neg hw, if_neg hw, if_neg hw, getElem?_bytesOf_of_not_wen hw]
    exact ⟨rfl, rfl⟩

/-- Settles O22: the enabled lanes are those below the length (`wen_iff`), and the byte of such a lane is a byte of
the encoded form, of which the first alone is not of format `CONT` (`isCont_eq_false_iff_first`). -/
theorem addressMapOfTheBuffer : Obligations.AddressMapOfTheBuffer := by
  intro v s
  obtain ⟨t, e, _, hstored, hkeeps, _⟩ := exec_decode v s
  have hfirst (i : Nat) (hw : wen v i = true) : isCont (t.byte i) = false ↔ i = 0 := by
    rw [wen_iff] at hw
    exact isCont_eq_false_iff_first (byte_of_stored_bytesOf hw (hstored i hw))
  refine ⟨wen_iff v 0, wen_iff v 1, wen_iff v 2, ?_, t, e, fun hw => (hfirst 0 hw).mpr rfl, fun i hi hw => ?_, hkeeps⟩
  · rw [wen_iff, Fin.ext_iff]
    exact ⟨fun h => by omega, fun h => by omega⟩
  · rw [← Bool.not_eq_false, hfirst i hw]
    omega

/-- Settles O26: below the length either operation leaves the bytes of the value, and from 4 on what the two states
held, which is the same (`exec_decode`). -/
theorem policiesAgreeOnTheResult : Obligations.PoliciesAgreeOnTheResult := by
  intro v s s' h
  have hlens : s'.lens = s.lens := by rw [h]
  have hbyte (i : Nat) : s'.byte i = s.byte i := by rw [h]; rfl
  obtain ⟨t, e, htlens, hstored, hkeeps, _⟩ := exec_decode v s
  obtain ⟨t', e', htlens', hstored', hkeeps', _⟩ := exec_decode v s'
  refine ⟨t, t', e, e', by rw [htlens, htlens', hlens], ?_⟩
  rintro i (hi | hi)
  · have hb := byte_of_stored_bytesOf hi (hstored i hi)
    exact Option.some.inj (hb.symm.trans (byte_of_stored_bytesOf hi (hstored' i hi)))
  · exact (hkeeps i hi).2.trans ((hbyte i).symm.trans (hkeeps' i hi).2.symm)

/-- Settles O27: a valid value completes and any other is rejected; under `havoc` the lanes that are open are then
drawn, one after another (`State.complete_byte`, `State.reject_byte`). -/
theorem havocDrawsTheOpenBytes : Obligations.HavocDrawsTheOpenBytes := by
  refine ⟨fun v s hv hp => ⟨_, exec_decode_of_valid hv s, ?_, fun i hl hi => ?_⟩,
    fun v s hv hp => ⟨_, exec_decode_of_rejected hv s, ?_, fun i hi => ?_⟩⟩
  · rw [State.complete_draws, if_pos hp]
  · rw [State.complete_byte, if_pos ⟨hp, hl, hi⟩]
  · rw [State.reject_draws, if_pos hp]
  · rw [State.reject_byte, if_pos ⟨hp, hi⟩]

/-- Settles O43: the length just returned is that of the value, and every byte below it is the value's
(`exec_decode`). -/
theorem correctCallerReadsTheEncodedForm : Obligations.CorrectCallerReadsTheEncodedForm := by
  intro v s
  obtain ⟨t, e, hlens, hstored, _⟩ := exec_decode v s
  refine ⟨t, e, ?_⟩
  rw [State.lastResult_of_lens hlens]
  exact map_byte_range_lenOf fun i hi => byte_of_stored_bytesOf hi (hstored i hi)

end Sys2Proof.Machine
end

section
/-! PROOFS. Streams (O36): a stream of encoded forms determines its values. -/

namespace Sys2Proof.Machine

open Safety

/-- The stream of a list with a valid first value is not empty. -/
theorem stream_cons_ne_nil {v : Word} (hv : v.toNat ≤ 1114111) (vs : List Word) : stream (v :: vs) ≠ [] := by
  obtain ⟨b, bs, hb⟩ := exists_bytesOf_eq_cons hv
  rw [stream_cons, hb]
  exact List.cons_ne_nil _ _

/-- Two streams that are equal begin with the same value: of the two first forms one is an initial part of the other. -/
theorem head_eq_of_stream_eq {v w : Word} {vs ws : List Word} (hv : v.toNat ≤ 1114111) (hw : w.toNat ≤ 1114111)
    (h : stream (v :: vs) = stream (w :: ws)) : v = w := by
  rw [stream_cons, stream_cons] at h
  have hprefix : bytesOf v <+: bytesOf w ++ stream ws := ⟨_, h⟩
  rcases List.prefix_or_prefix_of_prefix hprefix (List.prefix_append _ _) with hvw | hwv
  · exact eq_of_bytesOf_prefix hv hw hvw
  · exact (eq_of_bytesOf_prefix hw hv hwv).symm

/-- Settles O36, by induction on the values: equal streams begin with the same value (`head_eq_of_stream_eq`), behind
whose form the rests are equal streams. -/
theorem streamsAreUniquelyDecodable : Obligations.StreamsAreUniquelyDecodable := by
  intro vs
  induction vs with
  | nil =>
    intro ws _ hws h
    cases ws with
    | nil => rfl
    | cons w ws => exact absurd h.symm (stream_cons_ne_nil (List.forall_mem_cons.mp hws).1 ws)
  | cons v vs ih =>
    intro ws hvs hws h
    obtain ⟨hv, hvs'⟩ := List.forall_mem_cons.mp hvs
    cases ws with
    | nil => exact absurd h (stream_cons_ne_nil hv vs)
    | cons w ws =>
      obtain ⟨hw, hws'⟩ := List.forall_mem_cons.mp hws
      obtain rfl := head_eq_of_stream_eq hv hw h
      rw [stream_cons, stream_cons] at h
      rw [ih ws hvs' hws' (List.append_cancel_left h)]

end Sys2Proof.Machine
end

section
/-! PROOFS. Writes in any order: the byte writes of one operation (O41), and the steps of several encoders (O40). -/

namespace Sys2Proof.Machine

/-! ### Writes to one memory -/

/-- Two writes to different indices commute: both orders read the same everywhere. -/
theorem Memory.write_comm {m : Memory} {i j : Nat} (b c : Byte) (h : m.wf = true) (hij : i ≠ j) :
    Memory.write (Memory.write m i b) j c = Memory.write (Memory.write m j c) i b := by
  refine Memory.ext_of_wf (wf_write j c (wf_write i b h)) (wf_write i b (wf_write j c h)) fun k => ?_
  simp only [Memory.read_write]
  by_cases hi : k = i
  · rw [if_neg (by omega), if_pos hi, if_pos hi]
  · rw [if_neg hi, if_neg hi]

/-- Settles O41, by induction on the rearrangement: two neighbouring writes that change places go to different indices
(`Memory.write_comm`). -/
theorem byteWritesCommute : Obligations.ByteWritesCommute := by
  intro m ws ws' hm hnodup hperm
  induction hperm generalizing m with
  | nil => rfl
  | cons w _ ih =>
    rw [List.map_cons, List.nodup_cons] at hnodup
    exact ih _ (Memory.wf_write w.1 w.2 hm) hnodup.2
  | swap w w' ws =>
    have hne : w'.1 ≠ w.1 := by
      rw [List.map_cons, List.map_cons, List.nodup_cons, List.mem_cons, not_or] at hnodup
      exact hnodup.1.1
    rw [List.foldl_cons, List.foldl_cons, List.foldl_cons, List.foldl_cons, Memory.write_comm _ _ hm hne]
  | trans hfirst _ ih ih' =>
    rw [ih m hm hnodup, ih' m hm ((hfirst.map Prod.fst).nodup_iff.mp hnodup)]

/-! ### Steps of several encoders -/

/-- From `sys` to `sys'` exactly the encoders named in `ks` have taken a step, each its own; the others are as they
were. -/
def SteppedExactly (ks : List Nat) (sys sys' : List State) : Prop :=
  sys'.length = sys.length ∧ (∀ k ∈ ks, k < sys.length) ∧
    ∀ (k : Nat) (s t : State), sys[k]? = some s → sys'[k]? = some t → if k ∈ ks then step s = .next t else t = s

theorem steppedExactly_nil (sys sys' : List State) : SteppedExactly [] sys sys' ↔ sys = sys' := by
  constructor
  · rintro ⟨hlength, _, hsteps⟩
    refine List.ext_getElem hlength.symm fun k hk hk' => ?_
    have := hsteps k _ _ (List.getElem?_eq_getElem hk) (List.getElem?_eq_getElem hk')
    rw [if_neg List.not_mem_nil] at this
    exact this.symm
  · rintro rfl
    refine ⟨rfl, nofun, fun k s t hs ht => ?_⟩
    rw [if_neg List.not_mem_nil]
    exact Option.some.inj (ht.symm.trans hs)

/-- Of different encoders the first takes its step, and then the others do: a step changes nothing for any other
encoder. -/
theorem steppedExactly_cons {k : Nat} {ks : List Nat} (hk : k ∉ ks) (sys sys' : List State) :
    SteppedExactly (k :: ks) sys sys' ↔
      ∃ s t, sys[k]? = some s ∧ step s = .next t ∧ SteppedExactly ks (sys.set k t) sys' := by
  have hmem {j : Nat} (hj : j ≠ k) : j ∈ k :: ks ↔ j ∈ ks := by rw [List.mem_cons, or_iff_right hj]
  constructor
  · rintro ⟨hlength, hbound, hsteps⟩
    have hlt : k < sys.length := hbound k List.mem_cons_self
    have hs := List.getElem?_eq_getElem hlt
    have ht := List.getElem?_eq_getElem (hlength ▸ hlt : k < sys'.length)
    refine ⟨_, _, hs, by simpa using hsteps k _ _ hs ht, by rw [List.length_set, hlength], fun j hj => ?_,
      fun j u w hu hw => ?_⟩
    · rw [List.length_set]
      exact hbound j (List.mem_cons_of_mem k hj)
    · by_cases hj : j = k
      · subst hj
        rw [List.getElem?_set_self hlt] at hu
        rw [if_neg hk]
        exact Option.some.inj (hw.symm.trans (ht.trans hu))
      · rw [List.getElem?_set_ne (Ne.symm hj)] at hu
        simpa only [hmem hj] using hsteps j u w hu hw
  · rintro ⟨s, t, hs, hstep, hlength, hbound, hsteps⟩
    rw [List.length_set] at hlength hbound
    have hlt : k < sys.length := (List.getElem?_eq_some_iff.mp hs).1
    refine ⟨hlength, List.forall_mem_cons.mpr ⟨hlt, hbound⟩, fun j u w hu hw => ?_⟩
    by_cases hj : j = k
    · subst hj
      obtain rfl := Option.some.inj (hs.symm.trans hu)
      have hwt := hsteps j t w (List.getElem?_set_self hlt) hw
      rw [if_neg hk] at hwt
      rw [if_pos List.mem_cons_self, hstep, hwt]
    · have := hsteps j u w (by rwa [List.getElem?_set_ne (Ne.symm hj)]) hw
      simpa only [hmem hj] using this

/-- One step each of different encoders, in the order given, by induction on their names. -/
theorem stepEach_next_iff {ks : List Nat} (h : ks.Nodup) (sys sys' : List State) :
    stepEach ks sys = .next sys' ↔ SteppedExactly ks sys sys' := by
  induction ks generalizing sys with
  | nil => rw [stepEach, Host.Outcome.next.injEq, steppedExactly_nil]
  | cons k ks ih =>
    obtain ⟨hk, hks⟩ := List.nodup_cons.mp h
    rw [stepEach_cons, steppedExactly_cons hk]
    constructor
    · rintro ⟨mid, hmid, hrest⟩
      obtain ⟨s, t, hs, hstep, rfl⟩ := (stepAt_next k sys mid).mp hmid
      exact ⟨s, t, hs, hstep, (ih hks _).mp hrest⟩
    · rintro ⟨s, t, hs, hstep, hrest⟩
      exact ⟨_, (stepAt_next k sys _).mpr ⟨s, t, hs, hstep, rfl⟩, (ih hks _).mpr hrest⟩

/-- Settles O40: steps of different encoders one after another come to the same as each encoder's own step
(`stepEach_next_iff`), and every overlapping use is refused. -/
theorem distinctBuffersDoNotInteract : Obligations.DistinctBuffersDoNotInteract := by
  refine ⟨fun ks sys sys' h => ?_, fun ks sys h => if_neg h, fun s v a rest hp => step_of_overlapping hp⟩
  rw [stepTogether, if_pos h]
  exact stepEach_next_iff h sys sys'

end Sys2Proof.Machine
end
